-- ==== Sys2Proof/Word.lean ====
section
/-! DEFINITION. The words of the machine: bytes, 16-bit words, 12-bit memory addresses, register and key
numbers (spec/00_scope.md R7, R8, R9). Every value is unsigned. -/

namespace Sys2Proof

/-- 8 bits: a V register, a timer, a memory byte, the immediate `kk` (R7, R20, R35). -/
abbrev Byte := BitVec 8

/-- 16 bits: I, PC, a stack slot, an instruction word (R23, R24, R28, R70). -/
abbrev Word := BitVec 16

/-- 12 bits: a memory address 0x000 to 0xFFF, and the immediate `nnn` (R7 ADDR_BITS, R50, R71). -/
abbrev Addr := BitVec 12

/-- 4 bits: the opcode family and the immediate `n` (R71). -/
abbrev Nibble := BitVec 4

/-- A register number, V0 to VF (R20, R82). -/
abbrev Reg := Fin 16

/-- A key number 0 to 15 (R7 NUM_KEYS, R233). -/
abbrev Key := Fin 16

/-- A display column, 0 to 63 (R231). -/
abbrev Column := Fin 64

/-- A display row, 0 to 31 (R231). -/
abbrev Row := Fin 32

/-- VF, register 15, which is also the flag register (R21). -/
abbrev VF : Reg := 15

end Sys2Proof
end

