-- ==== Sys2Proof/Syntax.lean ====
section
/-! DEFINITION. The instructions: one constructor for each of the 35 patterns of spec/30_encoding.md R75
(spec/opcode_table.json). Operand fields keep every value the encoding has (R82), the unread `y` of the two shifts
among them (R150, R152). -/

namespace Sys2Proof

/-- The 35 instructions of R2. -/
inductive Instr
  /-- 00E0 CLS: clear the display (R190). -/
  | cls
  /-- 00EE RET: return from subroutine (R100). -/
  | ret
  /-- 0nnn SYS nnn: legacy machine-code call, unsupported (R104). -/
  | sys (nnn : Addr)
  /-- 1nnn JP nnn: jump (R101). -/
  | jp (nnn : Addr)
  /-- 2nnn CALL nnn: call subroutine (R102). -/
  | call (nnn : Addr)
  /-- 3xkk SE Vx, kk: skip if equal to the immediate (R120). -/
  | seImm (x : Reg) (kk : Byte)
  /-- 4xkk SNE Vx, kk: skip if not equal to the immediate (R121). -/
  | sneImm (x : Reg) (kk : Byte)
  /-- 5xy0 SE Vx, Vy: skip if the registers are equal (R122). -/
  | seReg (x y : Reg)
  /-- 6xkk LD Vx, kk: load immediate (R140). -/
  | ldImm (x : Reg) (kk : Byte)
  /-- 7xkk ADD Vx, kk: add immediate, no flag (R141). -/
  | addImm (x : Reg) (kk : Byte)
  /-- 8xy0 LD Vx, Vy: register copy (R143). -/
  | ldReg (x y : Reg)
  /-- 8xy1 OR Vx, Vy (R144). -/
  | orReg (x y : Reg)
  /-- 8xy2 AND Vx, Vy (R145). -/
  | andReg (x y : Reg)
  /-- 8xy3 XOR Vx, Vy (R146). -/
  | xorReg (x y : Reg)
  /-- 8xy4 ADD Vx, Vy: add with carry out (R148). -/
  | addReg (x y : Reg)
  /-- 8xy5 SUB Vx, Vy: subtract with NOT-borrow (R149). -/
  | sub (x y : Reg)
  /-- 8xy6 SHR Vx: shift right by one; `y` is decoded and not read (R150). -/
  | shr (x y : Reg)
  /-- 8xy7 SUBN Vx, Vy: reverse subtract with NOT-borrow (R151). -/
  | subn (x y : Reg)
  /-- 8xyE SHL Vx: shift left by one; `y` is decoded and not read (R152). -/
  | shl (x y : Reg)
  /-- 9xy0 SNE Vx, Vy: skip if the registers differ (R123). -/
  | sneReg (x y : Reg)
  /-- Annn LD I, nnn: load the address register (R170). -/
  | ldI (nnn : Addr)
  /-- Bnnn JP V0, nnn: jump with offset (R103). -/
  | jpV0 (nnn : Addr)
  /-- Cxkk RND Vx, kk: random byte masked by the immediate (R153). -/
  | rnd (x : Reg) (kk : Byte)
  /-- Dxyn DRW Vx, Vy, n: draw a sprite of n rows (R194). -/
  | drw (x y : Reg) (n : Nibble)
  /-- Ex9E SKP Vx: skip if key Vx is pressed (R124). -/
  | skp (x : Reg)
  /-- ExA1 SKNP Vx: skip if key Vx is not pressed (R125). -/
  | sknp (x : Reg)
  /-- Fx07 LD Vx, DT: read the delay timer (R191). -/
  | ldVxDT (x : Reg)
  /-- Fx0A LD Vx, K: wait for a key press (R198). -/
  | ldK (x : Reg)
  /-- Fx15 LD DT, Vx: set the delay timer (R192). -/
  | ldDT (x : Reg)
  /-- Fx18 LD ST, Vx: set the sound timer (R193). -/
  | ldST (x : Reg)
  /-- Fx1E ADD I, Vx: add to the address register (R171). -/
  | addI (x : Reg)
  /-- Fx29 LD F, Vx: point I at a font glyph (R172). -/
  | ldF (x : Reg)
  /-- Fx33 LD B, Vx: store BCD (R173). -/
  | ldB (x : Reg)
  /-- Fx55 LD [I], Vx: store V0 to Vx (R174). -/
  | storeRegs (x : Reg)
  /-- Fx65 LD Vx, [I]: load V0 to Vx (R175). -/
  | loadRegs (x : Reg)
  deriving DecidableEq, Repr

end Sys2Proof
end

