-- ==== Sys2Proof/Decode.lean ====
section
/-! DEFINITION. The decoder, total on every word and on any bytes, and the encoder (spec/30_encoding.md). -/

namespace Sys2Proof

/-- Why bytes decode to no instruction. -/
inductive DecodeError
  /-- Fewer than two bytes were given: an instruction is exactly one 16-bit word (R70). -/
  | truncated
  /-- The word matches no pattern of R75: the class Unsupported (R72, R77). -/
  | unsupported (word : Word)
  deriving DecidableEq, Repr

/-! ## Fields of a word (R8, R71) -/

/-- `op = word[15:12]`. -/
def opField (w : Word) : Nibble := w.extractLsb' 12 4

/-- `x = word[11:8]`, a register number. -/
def xField (w : Word) : Reg := (w.extractLsb' 8 4).toFin

/-- `y = word[7:4]`, a register number. -/
def yField (w : Word) : Reg := (w.extractLsb' 4 4).toFin

/-- `n = word[3:0]`. -/
def nField (w : Word) : Nibble := w.extractLsb' 0 4

/-- `kk = word[7:0]`. -/
def kkField (w : Word) : Byte := w.extractLsb' 0 8

/-- `nnn = word[11:0]`. -/
def nnnField (w : Word) : Addr := w.extractLsb' 0 12

/-! ## Decoding -/

/-- The 8xy_ group, selected by `n` (R75; the sub-opcode numbers are the spec's decision D23, log entry 14). -/
def decodeAlu (w : Word) : Except DecodeError Instr :=
  match nField w with
  | 0x0#4 => .ok (.ldReg (xField w) (yField w))
  | 0x1#4 => .ok (.orReg (xField w) (yField w))
  | 0x2#4 => .ok (.andReg (xField w) (yField w))
  | 0x3#4 => .ok (.xorReg (xField w) (yField w))
  | 0x4#4 => .ok (.addReg (xField w) (yField w))
  | 0x5#4 => .ok (.sub (xField w) (yField w))
  | 0x6#4 => .ok (.shr (xField w) (yField w))
  | 0x7#4 => .ok (.subn (xField w) (yField w))
  | 0xE#4 => .ok (.shl (xField w) (yField w))
  | _ => .error (.unsupported w)

/-- The Ex__ group, selected by `kk` (R75). -/
def decodeKeys (w : Word) : Except DecodeError Instr :=
  match kkField w with
  | 0x9E#8 => .ok (.skp (xField w))
  | 0xA1#8 => .ok (.sknp (xField w))
  | _ => .error (.unsupported w)

/-- The Fx__ group, selected by `kk` (R75). -/
def decodeMisc (w : Word) : Except DecodeError Instr :=
  match kkField w with
  | 0x07#8 => .ok (.ldVxDT (xField w))
  | 0x0A#8 => .ok (.ldK (xField w))
  | 0x15#8 => .ok (.ldDT (xField w))
  | 0x18#8 => .ok (.ldST (xField w))
  | 0x1E#8 => .ok (.addI (xField w))
  | 0x29#8 => .ok (.ldF (xField w))
  | 0x33#8 => .ok (.ldB (xField w))
  | 0x55#8 => .ok (.storeRegs (xField w))
  | 0x65#8 => .ok (.loadRegs (xField w))
  | _ => .error (.unsupported w)

/-- The 0___ group: 0x00E0 and 0x00EE are tested before the general 0nnn pattern (R76). -/
def decodeZero (w : Word) : Instr :=
  if w = 0x00E0#16 then .cls else if w = 0x00EE#16 then .ret else .sys (nnnField w)

/-- The opcode map (R75): dispatch on `op`, then on the sub-field the pattern fixes; a word whose sub-field matches
no listed value is Unsupported (R72, R77, the spec's decision D2). -/
def decode (w : Word) : Except DecodeError Instr :=
  match opField w with
  | 0x0#4 => .ok (decodeZero w)
  | 0x1#4 => .ok (.jp (nnnField w))
  | 0x2#4 => .ok (.call (nnnField w))
  | 0x3#4 => .ok (.seImm (xField w) (kkField w))
  | 0x4#4 => .ok (.sneImm (xField w) (kkField w))
  | 0x5#4 => if nField w = 0x0#4 then .ok (.seReg (xField w) (yField w)) else .error (.unsupported w)
  | 0x6#4 => .ok (.ldImm (xField w) (kkField w))
  | 0x7#4 => .ok (.addImm (xField w) (kkField w))
  | 0x8#4 => decodeAlu w
  | 0x9#4 => if nField w = 0x0#4 then .ok (.sneReg (xField w) (yField w)) else .error (.unsupported w)
  | 0xA#4 => .ok (.ldI (nnnField w))
  | 0xB#4 => .ok (.jpV0 (nnnField w))
  | 0xC#4 => .ok (.rnd (xField w) (kkField w))
  | 0xD#4 => .ok (.drw (xField w) (yField w) (nField w))
  | 0xE#4 => decodeKeys w
  | 0xF#4 => decodeMisc w
  | _ => .error (.unsupported w)

/-- Two bytes as an instruction word, big-endian: `hi` is the byte at the lower address and bits 15 to 8 (R52, R70). -/
def wordOfBytes (hi lo : Byte) : Word := hi.setWidth 16 <<< 8 ||| lo.setWidth 16

/-- The byte at the lower address: bits 15 to 8 (R52). -/
def highByte (w : Word) : Byte := w.extractLsb' 8 8

/-- The byte at the higher address: bits 7 to 0 (R52). -/
def lowByte (w : Word) : Byte := w.extractLsb' 0 8

/-- An instruction from the front of a list of bytes, with the bytes that follow it; one length only (R70). -/
def decodeBytes : List Byte → Except DecodeError (Instr × List Byte)
  | hi :: lo :: rest =>
    match decode (wordOfBytes hi lo) with
    | .ok i => .ok (i, rest)
    | .error e => .error e
  | [_] => .error .truncated
  | [] => .error .truncated

/-! ## Encoding (R70, R71, R75, spec/opcode_table.json) -/

/-- A register number as a 4-bit field. -/
def regField (r : Reg) : Nibble := BitVec.ofFin r

/-- A word of the form `_nnn`. -/
def wordNnn (op : Nibble) (nnn : Addr) : Word := op.setWidth 16 <<< 12 ||| nnn.setWidth 16

/-- A word of the form `_xkk`. -/
def wordXkk (op : Nibble) (x : Reg) (kk : Byte) : Word :=
  op.setWidth 16 <<< 12 ||| (regField x).setWidth 16 <<< 8 ||| kk.setWidth 16

/-- A word of the form `_xyn`. -/
def wordXyn (op : Nibble) (x y : Reg) (n : Nibble) : Word :=
  op.setWidth 16 <<< 12 ||| (regField x).setWidth 16 <<< 8 ||| (regField y).setWidth 16 <<< 4 ||| n.setWidth 16

/-- The word of an instruction (R75). -/
def encode : Instr → Word
  | .cls => 0x00E0#16
  | .ret => 0x00EE#16
  | .sys nnn => wordNnn 0x0#4 nnn
  | .jp nnn => wordNnn 0x1#4 nnn
  | .call nnn => wordNnn 0x2#4 nnn
  | .seImm x kk => wordXkk 0x3#4 x kk
  | .sneImm x kk => wordXkk 0x4#4 x kk
  | .seReg x y => wordXyn 0x5#4 x y 0x0#4
  | .ldImm x kk => wordXkk 0x6#4 x kk
  | .addImm x kk => wordXkk 0x7#4 x kk
  | .ldReg x y => wordXyn 0x8#4 x y 0x0#4
  | .orReg x y => wordXyn 0x8#4 x y 0x1#4
  | .andReg x y => wordXyn 0x8#4 x y 0x2#4
  | .xorReg x y => wordXyn 0x8#4 x y 0x3#4
  | .addReg x y => wordXyn 0x8#4 x y 0x4#4
  | .sub x y => wordXyn 0x8#4 x y 0x5#4
  | .shr x y => wordXyn 0x8#4 x y 0x6#4
  | .subn x y => wordXyn 0x8#4 x y 0x7#4
  | .shl x y => wordXyn 0x8#4 x y 0xE#4
  | .sneReg x y => wordXyn 0x9#4 x y 0x0#4
  | .ldI nnn => wordNnn 0xA#4 nnn
  | .jpV0 nnn => wordNnn 0xB#4 nnn
  | .rnd x kk => wordXkk 0xC#4 x kk
  | .drw x y n => wordXyn 0xD#4 x y n
  | .skp x => wordXkk 0xE#4 x 0x9E#8
  | .sknp x => wordXkk 0xE#4 x 0xA1#8
  | .ldVxDT x => wordXkk 0xF#4 x 0x07#8
  | .ldK x => wordXkk 0xF#4 x 0x0A#8
  | .ldDT x => wordXkk 0xF#4 x 0x15#8
  | .ldST x => wordXkk 0xF#4 x 0x18#8
  | .addI x => wordXkk 0xF#4 x 0x1E#8
  | .ldF x => wordXkk 0xF#4 x 0x29#8
  | .ldB x => wordXkk 0xF#4 x 0x33#8
  | .storeRegs x => wordXkk 0xF#4 x 0x55#8
  | .loadRegs x => wordXkk 0xF#4 x 0x65#8

/-- The two bytes of a word as they lie in memory, the first at the lower address (R52). -/
def wordBytes (w : Word) : List Byte := [highByte w, lowByte w]

/-! ## The opcode table (spec/opcode_table.json: each row's match and mask) -/

/-- The `mask` of the instruction's row: the bits its pattern fixes. -/
def Instr.rowMask : Instr → Word
  | .cls => 0xFFFF
  | .ret => 0xFFFF
  | .sys _ => 0xF000
  | .jp _ => 0xF000
  | .call _ => 0xF000
  | .seImm _ _ => 0xF000
  | .sneImm _ _ => 0xF000
  | .seReg _ _ => 0xF00F
  | .ldImm _ _ => 0xF000
  | .addImm _ _ => 0xF000
  | .ldReg _ _ => 0xF00F
  | .orReg _ _ => 0xF00F
  | .andReg _ _ => 0xF00F
  | .xorReg _ _ => 0xF00F
  | .addReg _ _ => 0xF00F
  | .sub _ _ => 0xF00F
  | .shr _ _ => 0xF00F
  | .subn _ _ => 0xF00F
  | .shl _ _ => 0xF00F
  | .sneReg _ _ => 0xF00F
  | .ldI _ => 0xF000
  | .jpV0 _ => 0xF000
  | .rnd _ _ => 0xF000
  | .drw _ _ _ => 0xF000
  | .skp _ => 0xF0FF
  | .sknp _ => 0xF0FF
  | .ldVxDT _ => 0xF0FF
  | .ldK _ => 0xF0FF
  | .ldDT _ => 0xF0FF
  | .ldST _ => 0xF0FF
  | .addI _ => 0xF0FF
  | .ldF _ => 0xF0FF
  | .ldB _ => 0xF0FF
  | .storeRegs _ => 0xF0FF
  | .loadRegs _ => 0xF0FF

/-- The `match` of the instruction's row: the value of the bits its pattern fixes. -/
def Instr.rowMatch : Instr → Word
  | .cls => 0x00E0
  | .ret => 0x00EE
  | .sys _ => 0x0000
  | .jp _ => 0x1000
  | .call _ => 0x2000
  | .seImm _ _ => 0x3000
  | .sneImm _ _ => 0x4000
  | .seReg _ _ => 0x5000
  | .ldImm _ _ => 0x6000
  | .addImm _ _ => 0x7000
  | .ldReg _ _ => 0x8000
  | .orReg _ _ => 0x8001
  | .andReg _ _ => 0x8002
  | .xorReg _ _ => 0x8003
  | .addReg _ _ => 0x8004
  | .sub _ _ => 0x8005
  | .shr _ _ => 0x8006
  | .subn _ _ => 0x8007
  | .shl _ _ => 0x800E
  | .sneReg _ _ => 0x9000
  | .ldI _ => 0xA000
  | .jpV0 _ => 0xB000
  | .rnd _ _ => 0xC000
  | .drw _ _ _ => 0xD000
  | .skp _ => 0xE09E
  | .sknp _ => 0xE0A1
  | .ldVxDT _ => 0xF007
  | .ldK _ => 0xF00A
  | .ldDT _ => 0xF015
  | .ldST _ => 0xF018
  | .addI _ => 0xF01E
  | .ldF _ => 0xF029
  | .ldB _ => 0xF033
  | .storeRegs _ => 0xF055
  | .loadRegs _ => 0xF065

/-! ## The host's view of the decoder -/

/-- The word that the host's number `w` of `nbits` bits stands for, the bits above `nbits` zero. -/
def tableWord (nbits w : Nat) : Word := BitVec.ofNat 16 (w % 2 ^ nbits)

/-- The instruction the decoder reads from the bytes of a table word (log entry 21). -/
def decodeTableWord (nbits w : Nat) : Option Instr :=
  match decodeBytes (wordBytes (tableWord nbits w)) with
  | .ok (i, _) => some i
  | .error _ => none

end Sys2Proof
end

