-- ==== Sys2Proof/Config.lean ====
section
/-! DEFINITION. What is fixed for one machine (the parameters of spec/00_scope.md R7) and the free values that the
spec leaves to the environment. -/

namespace Sys2Proof

/-- The two readings of an unsupported word that R78 and R217 name. -/
inductive UnsupportedPolicy
  /-- The word raises UnsupportedOpcode (R78). -/
  | fatal
  /-- The word executes as `PC <- p + 2` and nothing else (R217). -/
  | noOp
  deriving DecidableEq, Repr

/-- `UNSUPPORTED_POLICY`. The spec's value is Fatal (R7, R78, its decision D1): log entry 12. -/
def Config.unsupportedPolicy : UnsupportedPolicy := .fatal

/-- Glyphs 0 to 3 of `FONT` (R40). -/
def Config.glyphs0to3 : List Byte :=
  [0xF0, 0x90, 0x90, 0x90, 0xF0] ++ [0x20, 0x60, 0x20, 0x20, 0x70] ++
  [0xF0, 0x10, 0xF0, 0x80, 0xF0] ++ [0xF0, 0x10, 0xF0, 0x10, 0xF0]

/-- Glyphs 4 to 7 of `FONT` (R40). -/
def Config.glyphs4to7 : List Byte :=
  [0x90, 0x90, 0xF0, 0x10, 0x10] ++ [0xF0, 0x80, 0xF0, 0x10, 0xF0] ++
  [0xF0, 0x80, 0xF0, 0x90, 0xF0] ++ [0xF0, 0x10, 0x20, 0x40, 0x40]

/-- Glyphs 8 to B of `FONT` (R40). -/
def Config.glyphs8toB : List Byte :=
  [0xF0, 0x90, 0xF0, 0x90, 0xF0] ++ [0xF0, 0x90, 0xF0, 0x10, 0xF0] ++
  [0xF0, 0x90, 0xF0, 0x90, 0x90] ++ [0xE0, 0x90, 0xE0, 0x90, 0xE0]

/-- Glyphs C to F of `FONT` (R40). -/
def Config.glyphsCtoF : List Byte :=
  [0xF0, 0x80, 0x80, 0x80, 0xF0] ++ [0xE0, 0x90, 0x90, 0x90, 0xE0] ++
  [0xF0, 0x80, 0xF0, 0x80, 0xF0] ++ [0xF0, 0x80, 0xF0, 0x80, 0x80]

/-- `FONT`, the 80 glyph bytes at 0x000 to 0x04F: the default table of R40, which the spec takes from general
knowledge (its decision D24). PRESUMED, unsafe for claims about pixels: log entry 11. -/
def Config.font : List Byte :=
  Config.glyphs0to3 ++ Config.glyphs4to7 ++ Config.glyphs8toB ++ Config.glyphsCtoF

/-- Byte `a` of `FONT`. -/
def Config.fontByte (a : Nat) : Byte := Config.font.getD a 0

/-- The free value of the `k`-th `RandomByte()` draw whose answer the environment has not put in State (R235). It
has no body: nothing constrains it. Log entry 5. -/
opaque Config.freeRandomByte : Nat → Byte

/-- The free answer of the `k`-th `is_pressed(key)` call whose answer the environment has not put in State (R233).
It has no body: nothing constrains it. Log entry 6. -/
opaque Config.freeKeyPressed : Nat → Key → Bool

end Sys2Proof
end

