-- ==== Sys2Proof/Machine/State.lean ====
section
/-! DEFINITION. The state of the machine as plain data: everything spec/10_state.md gives it, the display's
framebuffer (spec/60_exceptions.md R231), and the environment's choices, which the spec makes inputs of the steps
(R42, R233, R234, R235) and this model holds as lists. -/

namespace Sys2Proof.Machine

/-- The 4096 bytes M (R35) as a list of (address, byte) pairs in one canonical form (`Memory.wf`): addresses strictly
rising, no entry equal to what an unlisted address reads as (`resetByte`). -/
abbrev Memory := List Host.Cell

/-- The framebuffer FB: 32 rows of 64 one-bit pixels, FB[py][px] (R231). -/
abbrev FrameBuffer := Vector (Vector Bool 64) 32

/-- The kinds of fatal fault (R210). RomTooLarge (code 16) is raised by the host's ROM load and not by a cycle, so it
is the refusal `Refusal.romTooLarge` and no kind of a fault record. -/
inductive FaultKind
  | stackOverflow
  | stackUnderflow
  | unsupportedOpcode
  | pcOutOfRange
  | fontWrite
  | invalidKey
  deriving DecidableEq, Repr

/-- What a fault records beside pc and word (R210, column "info recorded"). -/
inductive FaultInfo
  | none
  /-- FontWrite: the first offending address. -/
  | address (a : Addr)
  /-- InvalidKey: the value of V[x]. -/
  | key (k : Byte)
  deriving DecidableEq, Repr

/-- The fault record `f` (R212). Its numeric code is `FaultKind.code` of the kind. -/
structure FaultRecord where
  kind : FaultKind
  /-- The PC of the failing instruction. -/
  pc   : Word
  /-- The fetched word; absent for PcOutOfRange. -/
  word : Option Word
  info : FaultInfo
  deriving DecidableEq, Repr

/-- The run state (R33). -/
inductive Run
  /-- The engine fetches and executes. -/
  | running
  /-- Fx0A entered this state; no fetch happens until a key press is delivered. -/
  | awaitingKey (x : Reg)
  /-- A fatal error stopped the CPU. Terminal (R216). -/
  | halted (f : FaultRecord)
  /-- The host's stop signal ended execution (R239). Terminal (R216). -/
  | stopped
  deriving DecidableEq, Repr

/-- One turn of one agent (R14): which agent takes a step, and what the environment hands over in it (R240). -/
inductive Turn
  /-- The instruction engine: one cycle (R73). -/
  | engine
  /-- The timer: one tick (R225). -/
  | timer
  /-- The keyboard: a press of key `k` (R199, R234). -/
  | key (k : Key)
  /-- The host: the stop signal (R239). -/
  | stop
  /-- The host: a new reset with a ROM (R216, R250, R253). -/
  | reset (rom : List Byte)
  deriving DecidableEq, Repr

/-- The whole state. -/
structure State where
  /-- V0 to VF (R20). -/
  v     : Vector Byte 16
  /-- The address register I, 16 bits (R23). -/
  i     : Word
  /-- PC: the address of the next instruction to fetch (R24). -/
  pc    : Word
  /-- SP: the number of occupied stack slots, 0 to 16 (R27). -/
  sp    : Fin 17
  /-- S[0] to S[15], 16 bits each (R28). -/
  stack : Vector Word 16
  /-- The delay timer (R30). -/
  dt    : Byte
  /-- The sound timer (R31). The sound output is computed from it (R237). -/
  st    : Byte
  /-- M (R35). -/
  mem   : Memory
  /-- The run state, with the fault record in Halted (R33, R212). -/
  run   : Run
  /-- FB (R231). -/
  fb    : FrameBuffer
  /-- The model's own: the coming turns of the agents, the next one first; when none is listed the instruction
  engine takes the turn (log entry 1). -/
  turns : List Turn
  /-- The model's own: the environment's answers to the coming `RandomByte()` draws (log entry 5). -/
  randomBytes : List Byte
  /-- The model's own: the environment's answers to the coming `is_pressed` calls (log entry 6). -/
  keyAnswers : List Bool
  /-- The model's own: how many draws were made, the index of the free value (log entry 5). -/
  draws : Nat
  /-- The model's own: how many `is_pressed` calls were made, the index of the free value (log entry 6). -/
  polls : Nat
  deriving DecidableEq, Repr

/-- Why `step` answers a fault: the spec enables no step of any agent (R216). Both are safe: the hardware takes no
step there either (log entry 3). -/
inductive Fault
  /-- Raised by `step` when run = Halted(f) and the coming turn is no reset. Safe. -/
  | halted (f : FaultRecord)
  /-- Raised by `step` when run = Stopped and the coming turn is no reset. Safe. -/
  | stopped
  deriving DecidableEq, Repr

/-- Why `step` answers a refusal. -/
inductive Refusal
  /-- Raised by `exec` for an instruction without a meaning. No arm of this model raises it. Safe. -/
  | notModelled (mnemonic : String)
  /-- RomTooLarge, code 16 (R210, R238): raised by the host's ROM load of `length` > 0xE00 bytes; nothing is loaded
  or started. Safe: the spec starts no machine there (log entry 9). -/
  | romTooLarge (length : Nat)
  deriving DecidableEq, Repr

/-- The machine right after reset with no ROM loaded (R250): every register 0, PC = 0x200, SP = 0, run = Running, FB
dark, memory with nothing listed (an unlisted byte reads as the font or as 0x00). The environment's lists are empty
and its counters 0 (log entry 7). -/
def State.reset : State where
  v := .replicate 16 0
  i := 0
  pc := 0x200
  sp := 0
  stack := .replicate 16 0
  dt := 0
  st := 0
  mem := []
  run := .running
  fb := .replicate 32 (.replicate 64 false)
  turns := []
  randomBytes := []
  keyAnswers := []
  draws := 0
  polls := 0

end Sys2Proof.Machine
end

