-- ==== Sys2Proof/Machine/Display.lean ====
section
/-! DEFINITION. The display collaborator: the XOR framebuffer with wraparound on both axes (spec/60_exceptions.md R230
to R232). -/

namespace Sys2Proof.Machine

/-- The pixel FB[py][px] (R231). -/
def FrameBuffer.pixel (fb : FrameBuffer) (px : Column) (py : Row) : Bool := fb[py.val][px.val]

/-- `FB[py][px] <- FB[py][px] ^ 1`. -/
def FrameBuffer.toggle (fb : FrameBuffer) (px : Column) (py : Row) : FrameBuffer :=
  fb.set py.val (fb[py.val].set px.val (!fb[py.val][px.val]))

/-- `clear()`: every pixel 0 (R231). -/
def FrameBuffer.clear : FrameBuffer := .replicate 32 (.replicate 64 false)

/-- The pixels one sprite byte hits, in the order c = 0 to 7: bit 7 is the leftmost pixel and the column wraps mod 64
(R232; the bit order and the axes are the spec's decision D25). -/
def rowPixels (x : Byte) (py : Row) (b : Byte) : List (Column × Row) :=
  ((List.range 8).filter fun c => b.getLsbD (7 - c)).map fun c => (Fin.ofNat 64 (x.toNat + c), py)

/-- The pixels the rows of a sprite hit, from row number `r` on; the row wraps mod 32 (R232). -/
def spritePixels (x y : Byte) : Nat → List Byte → List (Column × Row)
  | _, [] => []
  | r, b :: rows => rowPixels x (Fin.ofNat 32 (y.toNat + r)) b ++ spritePixels x y (r + 1) rows

/-- Draw one pixel: note a collision if it is set, then toggle it (R232, the body of the loop). -/
def drawPixel (d : FrameBuffer × Bool) (p : Column × Row) : FrameBuffer × Bool :=
  (d.1.toggle p.1 p.2, d.2 || d.1.pixel p.1 p.2)

/-- `blit(x, y, rows) -> collided` (R232): the new framebuffer and whether a pixel it toggled was set. -/
def blit (fb : FrameBuffer) (x y : Byte) (rows : List Byte) : FrameBuffer × Bool :=
  (spritePixels x y 0 rows).foldl drawPixel (fb, false)

end Sys2Proof.Machine
end

