-- ==== Sys2Proof/Machine/Flags.lean ====
section
/-! DEFINITION. The value of VF of every instruction that writes it as a flag (spec/10_state.md R22). Carry and borrow
are defined on the unbounded values of the operands, before the wrap (spec/42_register_alu.md R147). -/

namespace Sys2Proof.Machine

/-- A flag as the byte VF receives: 1 or 0 (R22). -/
def flagByte (c : Bool) : Byte := if c then 1 else 0

/-- 8xy4: the unsigned sum exceeds 255 (R148). -/
def addCarry (a b : Byte) : Bool := decide (255 < a.toNat + b.toNat)

/-- 8xy5 and 8xy7: NOT borrow of `a - b`, that is `a ≥ b` (R149, R151; at equality the spec's decision D9). -/
def notBorrow (a b : Byte) : Bool := decide (b.toNat ≤ a.toNat)

/-- 8xy6: the bit shifted out at the right, bit 0 (R150). -/
def shiftedOutRight (a : Byte) : Bool := a.getLsbD 0

/-- 8xyE: the bit shifted out at the left, bit 7 (R152). -/
def shiftedOutLeft (a : Byte) : Bool := a.getLsbD 7

/-- Fx1E: the unbounded sum `I + V[x]` passes 0x0FFF (R171, the spec's decision D12). -/
def indexOverflow (i : Word) (b : Byte) : Bool := decide (0x0FFF < i.toNat + b.toNat)

end Sys2Proof.Machine
end

