-- ==== Sys2Proof/Machine/Memory.lean ====
section
/-! DEFINITION. Memory: one flat space of 4096 bytes (spec/20_memory.md R50), read and written byte by byte (R53),
with no side effect (R58). -/

namespace Sys2Proof.Machine

/-- The last address of the font region, 0x04F (R36, R59). -/
abbrev fontEnd : Nat := 0x04F

/-- What an address that memory does not list reads as, the reset contents of R250: the font at 0x000 to 0x04F
(R36, R40), 0x00 elsewhere (R39). -/
def resetByte (a : Nat) : Byte := if a ≤ fontEnd then Config.fontByte a else 0

/-- The canonical form: addresses strictly rising and below 0x1000 (R35), no entry equal to what an unlisted address
reads as. -/
abbrev Memory.wf (m : Memory) : Prop :=
  m.Pairwise (fun c d => c.1 < d.1) ∧ ∀ c ∈ m, c.1 < 0x1000 ∧ c.2 ≠ resetByte c.1

/-- The byte at an address. -/
def Memory.read : Memory → Nat → Byte
  | [], a => resetByte a
  | (k, b) :: m, a => if k = a then b else Memory.read m a

/-- Put a byte in front of a memory whose addresses are all higher, keeping the canonical form. -/
def Memory.consByte (a : Nat) (b : Byte) (m : Memory) : Memory :=
  if b = resetByte a then m else (a, b) :: m

/-- Store a byte at an address, keeping the canonical form. -/
def Memory.write : Memory → Nat → Byte → Memory
  | [], a, b => Memory.consByte a b []
  | (k, c) :: m, a, b =>
    if k < a then (k, c) :: Memory.write m a b
    else if k = a then Memory.consByte a b m
    else Memory.consByte a b ((k, c) :: m)

/-- Perform the writes of a list in order (R56, the second loop). -/
def Memory.writeAll (m : Memory) (ws : List (Addr × Byte)) : Memory :=
  ws.foldl (fun m w => m.write w.1.toNat w.2) m

/-- Write a stream of bytes unmodified at consecutive addresses from `a` upward (R238). -/
def Memory.load (m : Memory) (a : Nat) : List Byte → Memory
  | [] => m
  | b :: bs => (m.write a b).load (a + 1) bs

/-- The address lies in the font region 0x000 to 0x04F, which no instruction may write (R56). -/
def inFont (a : Addr) : Bool := decide (a.toNat ≤ fontEnd)

end Sys2Proof.Machine
end

