-- ==== Sys2Proof/Machine/Operands.lean ====
section
/-! DEFINITION. Every operand form: immediates (spec/30_encoding.md R82), the one addressing mode, I plus a constant
offset wrapped to 12 bits (spec/00_scope.md R11, spec/43_index_and_memory.md R176), and the values computed from them. -/

namespace Sys2Proof.Machine

/-- `zext_16(nnn)` (R82). -/
def zext16 (nnn : Addr) : Word := nnn.setWidth 16

/-- `zext_16(V[i])`. -/
def byteWord (b : Byte) : Word := b.setWidth 16

/-- The data effective address `ea(k) = (I + k) mod 0x1000` (R11, R55, the spec's decision D3). -/
def ea (i : Word) (k : Nat) : Addr := BitVec.ofNat 12 (i.toNat + k)

/-- The target of Bnnn: `(zext_16(nnn) + zext_16(V[0])) mod 2^16` (R103). -/
def offsetTarget (nnn : Addr) (v0 : Byte) : Word := zext16 nnn + byteWord v0

/-- The sum of Fx1E, wrapped at 16 bits (R171). -/
def indexSum (i : Word) (b : Byte) : Word := i + byteWord b

/-- The address of Fx29: `zext_16(V[x]) * 5`, not masked (R172, the spec's decision D30). -/
def glyphAddress (b : Byte) : Word := byteWord b * 5

/-- The three writes of Fx33, hundreds at the lowest address (R173). -/
def bcdWrites (i : Word) (b : Byte) : List (Addr × Byte) :=
  [(ea i 0, BitVec.ofNat 8 (b.toNat / 100)),
   (ea i 1, BitVec.ofNat 8 (b.toNat / 10 % 10)),
   (ea i 2, BitVec.ofNat 8 (b.toNat % 10))]

/-- The registers V0 to Vx, in this order (R174, R175). -/
def regsUpTo (x : Reg) : List Reg := (List.range (x.val + 1)).map (Fin.ofNat 16)

end Sys2Proof.Machine
end

