-- ==== Sys2Proof/Machine/Ops.lean ====
section
/-! DEFINITION. The named operations on the state: the accessors of every register, the PC updates of spec/10_state.md
R25, the stack (R27), memory and its font check (spec/20_memory.md R56), raising a fault (spec/60_exceptions.md R212),
and the calls of the collaborators (R230 to R237). -/

namespace Sys2Proof.Machine

/-! ## Registers -/

/-- `V[r]` (R10, R20). -/
def State.reg (s : State) (r : Reg) : Byte := s.v[r.val]

/-- `V[r] <- b`. No register is hardwired (R20). -/
def State.setReg (s : State) (r : Reg) (b : Byte) : State := { s with v := s.v.set r.val b }

/-- `VF <- flag`, the last write of an instruction that sets a flag (R21, R142). -/
def State.setFlag (s : State) (c : Bool) : State := s.setReg VF (flagByte c)

/-- `I <- w` (R23). -/
def State.setI (s : State) (w : Word) : State := { s with i := w }

/-- `DT <- b` (R30). -/
def State.setDT (s : State) (b : Byte) : State := { s with dt := b }

/-- `ST <- b` (R31). -/
def State.setST (s : State) (b : Byte) : State := { s with st := b }

/-- `run <- r` (R33). -/
def State.setRun (s : State) (r : Run) : State := { s with run := r }

/-- `FB <- fb` (R231). -/
def State.setFb (s : State) (fb : FrameBuffer) : State := { s with fb := fb }

/-! ## The program counter (R25; additions mod 2^16, R26) -/

/-- `PC <- w`. -/
def State.setPc (s : State) (w : Word) : State := { s with pc := w }

/-- The PC advance of an instruction that completes and sets no PC itself: `PC <- p + 2`. -/
def State.advance (s : State) : State := s.setPc (s.pc + 2)

/-- The PC advance of a skip: `PC <- p + 4` when its condition holds and `PC <- p + 2` otherwise (R25, R126). -/
def State.skipIf (s : State) (c : Bool) : State := s.setPc (if c then s.pc + 4 else s.pc + 2)

/-! ## The call stack (R27) -/

/-- A push, `S[SP] <- w; SP <- SP + 1`, legal only when SP < 16. -/
def State.push (s : State) (w : Word) : Option State :=
  if h : s.sp.val < 16 then
    some { s with stack := s.stack.set s.sp.val w, sp := ⟨s.sp.val + 1, by omega⟩ }
  else none

/-- A pop, `SP <- SP - 1; v <- S[SP]`, legal only when SP > 0. The slot keeps its value (R28). -/
def State.pop (s : State) : Option (Word × State) :=
  if h : 0 < s.sp.val then
    some (s.stack[s.sp.val - 1], { s with sp := ⟨s.sp.val - 1, by omega⟩ })
  else none

/-! ## Memory (R53 to R58) -/

/-- `MemRead(a, 1)`. Reads of every address are allowed (R55, R56). -/
def State.readByte (s : State) (a : Addr) : Byte := s.mem.read a.toNat

/-- `MemWriteChecked` (R56): the first target in the font region, in write order, stops all the writes and is the
address to report; otherwise all the writes are performed. -/
def State.writeChecked (s : State) (ws : List (Addr × Byte)) : Except Addr State :=
  match ws.find? fun w => inFont w.1 with
  | some w => .error w.1
  | none => .ok { s with mem := s.mem.writeAll ws }

/-- The writes of Fx55: `(ea(i), V[i])` for i = 0 to x (R174). -/
def State.storeWrites (s : State) (x : Reg) : List (Addr × Byte) :=
  (regsUpTo x).map fun r => (ea s.i r.val, s.reg r)

/-- `V[i] <- MemRead(ea(i), 1)` for i = 0 to x (R175). -/
def State.loadUpTo (s : State) (x : Reg) : State :=
  (regsUpTo x).foldl (fun t r => t.setReg r (s.readByte (ea s.i r.val))) s

/-- The sprite rows of Dxyn: `MemRead(ea(r), 1)` for r = 0 to n-1 (R194). -/
def State.spriteRows (s : State) (n : Nibble) : List Byte :=
  (List.range n.toNat).map fun r => s.readByte (ea s.i r)

/-! ## Faults (R210 to R214) -/

/-- The numeric code of a fault kind (R210, the spec's decision D17). -/
def FaultKind.code : FaultKind → Nat
  | .stackOverflow => 1
  | .stackUnderflow => 2
  | .unsupportedOpcode => 3
  | .pcOutOfRange => 4
  | .fontWrite => 5
  | .invalidKey => 6

/-- The code of RomTooLarge, the fault of the ROM load (R210). -/
def romTooLargeCode : Nat := 16

/-- `raise F(info)`: TAKING A FAULT (R212). `run <- Halted(f)` with the record of the kind, the PC of the failing
instruction, its word and the info; nothing else is written (R213). There is no handler and no return (R216). -/
def State.raiseFault (s : State) (kind : FaultKind) (word : Option Word) (info : FaultInfo) : State :=
  s.setRun (.halted { kind := kind, pc := s.pc, word := word, info := info })

/-- Instruction `i` raises a fault in its execution: its word is the fetched word, and PC still is the address it was
fetched at (R24, R212; log entry 13). -/
def State.raiseIn (s : State) (i : Instr) (kind : FaultKind) (info : FaultInfo) : State :=
  s.raiseFault kind (some (encode i)) info

/-- An unsupported word under each policy (R78, R217). -/
def State.unsupportedUnder (s : State) (policy : UnsupportedPolicy) (word : Word) : State :=
  match policy with
  | .fatal => s.raiseFault .unsupportedOpcode (some word) .none
  | .noOp => s.advance

/-- A 0nnn or Unsupported word under the machine's policy (R78). -/
def State.unsupported (s : State) (word : Word) : State := s.unsupportedUnder Config.unsupportedPolicy word

/-- What the host reads of a halted machine (R212, R240). -/
def State.faultRecord (s : State) : Option FaultRecord :=
  match s.run with
  | .halted f => some f
  | .running => none
  | .awaitingKey _ => none
  | .stopped => none

/-! ## The random oracle and the keyboard (R233, R235): inputs of the step -/

/-- The answer of the next `RandomByte()`: the environment's listed answer, or the free value of this draw. -/
def State.randomByte (s : State) : Byte :=
  match s.randomBytes with
  | [] => Config.freeRandomByte s.draws
  | b :: _ => b

/-- One draw was made (R153: each execution draws afresh). -/
def State.afterDraw (s : State) : State :=
  { s with randomBytes := s.randomBytes.tail, draws := s.draws + 1 }

/-- The answer of the next `Keyboard.is_pressed(k)`: the environment's listed answer, or the free value. -/
def State.keyPressed (s : State) (k : Key) : Bool :=
  match s.keyAnswers with
  | [] => Config.freeKeyPressed s.polls k
  | b :: _ => b

/-- One `is_pressed` call was made (R127: exactly one for each Ex9E or ExA1). -/
def State.afterPoll (s : State) : State :=
  { s with keyAnswers := s.keyAnswers.tail, polls := s.polls + 1 }

/-- The key number a key skip asks about, if V[x] is one: keys are 0 to 15 (R127). -/
def keyOf (b : Byte) : Option Key :=
  if h : b.toNat < 16 then some ⟨b.toNat, h⟩ else none

/-! ## Display and sound (R231, R236, R237) -/

/-- The pixel FB[py][px] as the host reads it (R231, R240). -/
def State.pixel (s : State) (px : Column) (py : Row) : Bool := s.fb.pixel px py

/-- `sound_active = (ST > 0)` (R237). -/
def State.soundActive (s : State) : Bool := decide (0 < s.st.toNat)

/-- The `set_active` call that a step from `s` to `t` makes, if the sound output changes (R237). -/
def setActiveCall (s t : State) : Option Bool :=
  if s.soundActive = t.soundActive then none else some t.soundActive

end Sys2Proof.Machine
end

