-- ==== Sys2Proof/Machine/Alu.lean ====
section
/-! DEFINITION. Register loads and ALU: 6xkk, 7xkk, 8xy_, Cxkk (spec/42_register_alu.md). Byte arithmetic wraps
modulo 256 (R147). -/

namespace Sys2Proof.Machine

/-- An 8xy_ instruction without a flag: both operands are read before V[x] is written (R142). -/
def aluPlain (f : Byte → Byte → Byte) (x y : Reg) (s : State) : State :=
  (s.setReg x (f (s.reg x) (s.reg y))).advance

/-- An 8xy_ instruction with a flag: both operands are read first, V[x] is written, then VF, last (R142). -/
def aluFlag (f : Byte → Byte → Byte) (flag : Byte → Byte → Bool) (x y : Reg) (s : State) : State :=
  ((s.setReg x (f (s.reg x) (s.reg y))).setFlag (flag (s.reg x) (s.reg y))).advance

/-- 6xkk LD: `V[x] <- kk` (R140). -/
def execLdImm (x : Reg) (kk : Byte) (s : State) : Host.Outcome State Fault Refusal :=
  .next (s.setReg x kk).advance

/-- 7xkk ADD: `V[x] <- (V[x] + kk) mod 2^8`, no flag (R141). -/
def execAddImm (x : Reg) (kk : Byte) (s : State) : Host.Outcome State Fault Refusal :=
  .next (s.setReg x (s.reg x + kk)).advance

/-- 8xy0 LD: `V[x] <- V[y]` (R143). -/
def execLdReg (x y : Reg) (s : State) : Host.Outcome State Fault Refusal :=
  .next (aluPlain (fun _ b => b) x y s)

/-- 8xy1 OR: `V[x] <- V[x] | V[y]` (R144). -/
def execOrReg (x y : Reg) (s : State) : Host.Outcome State Fault Refusal :=
  .next (aluPlain (fun a b => a ||| b) x y s)

/-- 8xy2 AND: `V[x] <- V[x] & V[y]` (R145). -/
def execAndReg (x y : Reg) (s : State) : Host.Outcome State Fault Refusal :=
  .next (aluPlain (fun a b => a &&& b) x y s)

/-- 8xy3 XOR: `V[x] <- V[x] ^ V[y]` (R146). -/
def execXorReg (x y : Reg) (s : State) : Host.Outcome State Fault Refusal :=
  .next (aluPlain (fun a b => a ^^^ b) x y s)

/-- 8xy4 ADD: the sum mod 2^8, VF = carry (R148). -/
def execAddReg (x y : Reg) (s : State) : Host.Outcome State Fault Refusal :=
  .next (aluFlag (fun a b => a + b) addCarry x y s)

/-- 8xy5 SUB: `V[x] - V[y]` mod 2^8, VF = NOT borrow (R149). -/
def execSub (x y : Reg) (s : State) : Host.Outcome State Fault Refusal :=
  .next (aluFlag (fun a b => a - b) notBorrow x y s)

/-- 8xy6 SHR: `V[x] >> 1`, VF = old bit 0; Vy is not read (R150). -/
def execShr (x y : Reg) (s : State) : Host.Outcome State Fault Refusal :=
  .next (aluFlag (fun a _ => a >>> 1) (fun a _ => shiftedOutRight a) x y s)

/-- 8xy7 SUBN: `V[y] - V[x]` mod 2^8, VF = NOT borrow (R151). -/
def execSubn (x y : Reg) (s : State) : Host.Outcome State Fault Refusal :=
  .next (aluFlag (fun a b => b - a) (fun a b => notBorrow b a) x y s)

/-- 8xyE SHL: `V[x] << 1` mod 2^8, VF = old bit 7; Vy is not read (R152). -/
def execShl (x y : Reg) (s : State) : Host.Outcome State Fault Refusal :=
  .next (aluFlag (fun a _ => a <<< 1) (fun a _ => shiftedOutLeft a) x y s)

/-- Cxkk RND: one draw, `V[x] <- r & kk` (R153). -/
def execRnd (x : Reg) (kk : Byte) (s : State) : Host.Outcome State Fault Refusal :=
  .next (s.afterDraw.setReg x (s.randomByte &&& kk)).advance

end Sys2Proof.Machine
end

