-- ==== Sys2Proof/Machine/ControlFlow.lean ====
section
/-! DEFINITION. Control transfer: 00EE, 0nnn, 1nnn, 2nnn, Bnnn (spec/40_control_flow.md). -/

namespace Sys2Proof.Machine

/-- 00EE RET: pop the return address into PC, with no further advance; StackUnderflow when SP = 0 (R100). -/
def execRet (s : State) : Host.Outcome State Fault Refusal :=
  match s.pop with
  | some (w, t) => .next (t.setPc w)
  | none => .next (s.raiseIn .ret .stackUnderflow .none)

/-- 0nnn SYS: an unsupported word under the machine's policy (R104, R78). -/
def execSys (nnn : Addr) (s : State) : Host.Outcome State Fault Refusal :=
  .next (s.unsupported (encode (.sys nnn)))

/-- 1nnn JP: `PC <- zext_16(nnn)` (R101). -/
def execJp (nnn : Addr) (s : State) : Host.Outcome State Fault Refusal :=
  .next (s.setPc (zext16 nnn))

/-- 2nnn CALL: push p + 2 and jump; StackOverflow when SP = 16 (R102). -/
def execCall (nnn : Addr) (s : State) : Host.Outcome State Fault Refusal :=
  match s.push (s.pc + 2) with
  | some t => .next (t.setPc (zext16 nnn))
  | none => .next (s.raiseIn (.call nnn) .stackOverflow .none)

/-- Bnnn JP V0: `PC <- (zext_16(nnn) + zext_16(V[0])) mod 2^16` (R103). -/
def execJpV0 (nnn : Addr) (s : State) : Host.Outcome State Fault Refusal :=
  .next (s.setPc (offsetTarget nnn (s.reg 0)))

end Sys2Proof.Machine
end

