-- ==== Sys2Proof/Machine/DisplayTimersKeys.lean ====
section
/-! DEFINITION. Display, timers and key wait: 00E0, Dxyn, Fx07, Fx0A, Fx15, Fx18 (spec/44_timers_display_keys.md). -/

namespace Sys2Proof.Machine

/-- 00E0 CLS: `Display.clear()` (R190). -/
def execCls (s : State) : Host.Outcome State Fault Refusal :=
  .next (s.setFb FrameBuffer.clear).advance

/-- Dxyn DRW: the coordinates and the rows are read, the sprite is drawn, then VF = collided, last (R194). -/
def execDrw (x y : Reg) (n : Nibble) (s : State) : Host.Outcome State Fault Refusal :=
  let drawn := blit s.fb (s.reg x) (s.reg y) (s.spriteRows n)
  .next ((s.setFb drawn.1).setFlag drawn.2).advance

/-- Fx07 LD Vx, DT: `V[x] <- DT` (R191). -/
def execLdVxDT (x : Reg) (s : State) : Host.Outcome State Fault Refusal :=
  .next (s.setReg x s.dt).advance

/-- Fx0A LD Vx, K: `run <- AwaitingKey(x)`; PC is advanced when the instruction executes (R198). The key is delivered
by a turn of the keyboard (`deliverKey`, R199). -/
def execLdK (x : Reg) (s : State) : Host.Outcome State Fault Refusal :=
  .next (s.setRun (.awaitingKey x)).advance

/-- Fx15 LD DT, Vx: `DT <- V[x]` (R192). -/
def execLdDT (x : Reg) (s : State) : Host.Outcome State Fault Refusal :=
  .next (s.setDT (s.reg x)).advance

/-- Fx18 LD ST, Vx: `ST <- V[x]` (R193). -/
def execLdST (x : Reg) (s : State) : Host.Outcome State Fault Refusal :=
  .next (s.setST (s.reg x)).advance

end Sys2Proof.Machine
end

