-- ==== Sys2Proof/Machine/IndexMemory.lean ====
section
/-! DEFINITION. The address register and memory: Annn, Fx1E, Fx29, Fx33, Fx55, Fx65 (spec/43_index_and_memory.md). -/

namespace Sys2Proof.Machine

/-- The checked writes of instruction `i`, then the advance; FontWrite with the first offending address, and then
nothing is written (R56, R176). I is unchanged (R176, the spec's decision D13). -/
def storeAll (i : Instr) (ws : List (Addr × Byte)) (s : State) : State :=
  match s.writeChecked ws with
  | .ok t => t.advance
  | .error a => s.raiseIn i .fontWrite (.address a)

/-- Annn LD I: `I <- zext_16(nnn)` (R170). -/
def execLdI (nnn : Addr) (s : State) : Host.Outcome State Fault Refusal :=
  .next (s.setI (zext16 nnn)).advance

/-- Fx1E ADD I: the sum wrapped at 16 bits, then VF, last (R171; the order is the spec's decision D11). -/
def execAddI (x : Reg) (s : State) : Host.Outcome State Fault Refusal :=
  .next ((s.setI (indexSum s.i (s.reg x))).setFlag (indexOverflow s.i (s.reg x))).advance

/-- Fx29 LD F: `I <- zext_16(V[x]) * 5` (R172). -/
def execLdF (x : Reg) (s : State) : Host.Outcome State Fault Refusal :=
  .next (s.setI (glyphAddress (s.reg x))).advance

/-- Fx33 LD B: store the three decimal digits of V[x] (R173). -/
def execLdB (x : Reg) (s : State) : Host.Outcome State Fault Refusal :=
  .next (storeAll (.ldB x) (bcdWrites s.i (s.reg x)) s)

/-- Fx55 LD [I], Vx: store V0 to Vx (R174). -/
def execStoreRegs (x : Reg) (s : State) : Host.Outcome State Fault Refusal :=
  .next (storeAll (.storeRegs x) (s.storeWrites x) s)

/-- Fx65 LD Vx, [I]: load V0 to Vx (R175). -/
def execLoadRegs (x : Reg) (s : State) : Host.Outcome State Fault Refusal :=
  .next (s.loadUpTo x).advance

end Sys2Proof.Machine
end

