-- ==== Sys2Proof/Machine/Skip.lean ====
section
/-! DEFINITION. Conditional skips: 3xkk, 4xkk, 5xy0, 9xy0, Ex9E, ExA1 (spec/41_conditional_skip.md). -/

namespace Sys2Proof.Machine

/-- 3xkk SE: skip if V[x] = kk (R120). -/
def execSeImm (x : Reg) (kk : Byte) (s : State) : Host.Outcome State Fault Refusal :=
  .next (s.skipIf (s.reg x == kk))

/-- 4xkk SNE: skip if V[x] ≠ kk (R121). -/
def execSneImm (x : Reg) (kk : Byte) (s : State) : Host.Outcome State Fault Refusal :=
  .next (s.skipIf (s.reg x != kk))

/-- 5xy0 SE: skip if V[x] = V[y] (R122). -/
def execSeReg (x y : Reg) (s : State) : Host.Outcome State Fault Refusal :=
  .next (s.skipIf (s.reg x == s.reg y))

/-- 9xy0 SNE: skip if V[x] ≠ V[y] (R123). -/
def execSneReg (x y : Reg) (s : State) : Host.Outcome State Fault Refusal :=
  .next (s.skipIf (s.reg x != s.reg y))

/-- Ex9E SKP: skip if key V[x] is pressed; InvalidKey when V[x] > 0x0F, and then no call is made (R124, R127). -/
def execSkp (x : Reg) (s : State) : Host.Outcome State Fault Refusal :=
  match keyOf (s.reg x) with
  | some k => .next (s.afterPoll.skipIf (s.keyPressed k))
  | none => .next (s.raiseIn (.skp x) .invalidKey (.key (s.reg x)))

/-- ExA1 SKNP: skip if key V[x] is not pressed; InvalidKey when V[x] > 0x0F, and then no call is made (R125, R127). -/
def execSknp (x : Reg) (s : State) : Host.Outcome State Fault Refusal :=
  match keyOf (s.reg x) with
  | some k => .next (s.afterPoll.skipIf (!s.keyPressed k))
  | none => .next (s.raiseIn (.sknp x) .invalidKey (.key (s.reg x)))

end Sys2Proof.Machine
end

