-- ==== Sys2Proof/Machine/Agents.lean ====
section
/-! DEFINITION. The agents (spec/00_scope.md R14): the instruction engine's cycle (spec/30_encoding.md R73), the timer's
tick (spec/60_exceptions.md R225), the keyboard's delivery (spec/44_timers_display_keys.md R199), and the host's stop
signal, reset and ROM load (R239, spec/70_reset_and_hazards.md R250, R253). One turn is one atomic step (R57, R61). -/

namespace Sys2Proof.Machine

/-! ## The instruction engine -/

/-- A fetch needs PC ≤ 0x0FFE, so that PC and PC+1 are both addresses (R74). PC has no alignment (R54). -/
def fetchable (pc : Word) : Bool := decide (pc.toNat ≤ 0x0FFE)

/-- `word = M[PC] ‖ M[PC+1]` (R52, R70). -/
def State.fetchWord (s : State) : Word :=
  wordOfBytes (s.readByte (s.pc.setWidth 12)) (s.readByte ((s.pc + 1).setWidth 12))

/-- One cycle (R73), with its checks in the order of R214: PcOutOfRange at fetch, UnsupportedOpcode at decode, then the
instruction's own. -/
def cycle (s : State) : Host.Outcome State Fault Refusal :=
  if fetchable s.pc then
    match decode s.fetchWord with
    | .ok i => exec i s
    | .error _ => .next (s.unsupported s.fetchWord)
  else .next (s.raiseFault .pcOutOfRange none .none)

/-! ## The timer, the keyboard and the host -/

/-- One down-count of a timer: it never goes below 0 (R32, R225). -/
def countDown (b : Byte) : Byte := if b = 0 then 0 else b - 1

/-- A timer tick: both counters in the same tick (R225). -/
def tick (s : State) : State := (s.setDT (countDown s.dt)).setST (countDown s.st)

/-- The delivery of key `k` to Fx0A waiting in register x: `V[x] <- k; run <- Running` (R199). -/
def deliverKey (x : Reg) (k : Key) (s : State) : State :=
  (s.setReg x (BitVec.ofNat 8 k.val)).setRun .running

/-- The host's stop signal: `run <- Stopped` and nothing else (R239). -/
def stopSignal (s : State) : State := s.setRun .stopped

/-- `PROGRAM_BASE`, where a ROM is loaded (R7). -/
abbrev programBase : Nat := 0x200

/-- `MAX_ROM_BYTES` (R7, R238). -/
abbrev maxRomBytes : Nat := 0xE00

/-- Reset and ROM load (R250, R253): every piece of the machine's state as after reset, the font in place, and the ROM
written unmodified from 0x200 upward; a ROM of more than 0xE00 bytes is refused and nothing is loaded or started
(R238). The environment's own choices, which are no state of the machine, go on (log entry 8). -/
def boot (rom : List Byte) (s : State) : Host.Outcome State Fault Refusal :=
  if rom.length ≤ maxRomBytes then
    .next { State.reset with
      mem := State.reset.mem.load programBase rom
      turns := s.turns, randomBytes := s.randomBytes, keyAnswers := s.keyAnswers
      draws := s.draws, polls := s.polls }
  else .refused (.romTooLarge rom.length)

/-! ## Whose turn it is -/

/-- The agent that takes the coming step: the first listed turn, or the instruction engine when none is listed
(log entry 1). -/
def State.nextTurn (s : State) : Turn := s.turns.headD .engine

/-- The coming turn is taken. -/
def State.popTurn (s : State) : State := { s with turns := s.turns.tail }

/-- A step of an agent that is enabled in Running and in AwaitingKey. In Halted and Stopped no agent takes a step
(R216), which is the outcome `fault` (log entry 3). -/
def whenLive (s : State) (running : Host.Outcome State Fault Refusal)
    (awaiting : Reg → Host.Outcome State Fault Refusal) : Host.Outcome State Fault Refusal :=
  match s.run with
  | .running => running
  | .awaitingKey x => awaiting x
  | .halted f => .fault (.halted f)
  | .stopped => .fault .stopped

/-- One turn of one agent. While the engine waits for a key it fetches nothing (R198), and a key press that nothing
waits for changes nothing (R199; the spec's decision D15; log entry 2). -/
def takeTurn (t : Turn) (s : State) : Host.Outcome State Fault Refusal :=
  match t with
  | .engine => whenLive s (cycle s) fun _ => .next s
  | .timer => whenLive s (.next (tick s)) fun _ => .next (tick s)
  | .key k => whenLive s (.next s) fun x => .next (deliverKey x k s)
  | .stop => whenLive s (.next (stopSignal s)) fun _ => .next (stopSignal s)
  | .reset rom => boot rom s

/-- The turns of a simulator with `INSTR_PER_TICK = n`: n cycles, then one tick, `k` times over (R226). -/
def fixedRateTurns (n : Nat) : Nat → List Turn
  | 0 => []
  | k + 1 => List.replicate n .engine ++ .timer :: fixedRateTurns n k

/-! ## Placing an instruction word where the next fetch finds it (log entry 10) -/

/-- `s` with a word stored at PC, in Running, and with the engine's turn next; a PC that no fetch can use is put at
the entry point 0x200 first (R251). -/
def State.placeWord (s : State) (w : Word) : State :=
  let pc := if fetchable s.pc then s.pc else 0x200
  { s with
    pc := pc
    mem := (s.mem.write pc.toNat (highByte w)).write (pc.toNat + 1) (lowByte w)
    run := .running
    turns := if s.nextTurn = .engine then s.turns else .engine :: s.turns }

end Sys2Proof.Machine
end

