-- ==== Sys2Proof/Machine/Step.lean ====
section
/-! DEFINITION. The step of the whole machine: one atomic step of one agent (spec/20_memory.md R61). -/

namespace Sys2Proof.Machine

/-- One step: the coming turn is taken off the list and its agent takes one atomic step. -/
def step (s : State) : Host.Outcome State Fault Refusal := takeTurn s.nextTurn s.popTurn

/-- `s` with the instruction of the host's table word stored where `step` fetches its next instruction. -/
def State.withFetchWord (s : State) (nbits w : Nat) : State := s.placeWord (tableWord nbits w)

end Sys2Proof.Machine
end

