-- ==== Sys2Proof/Safety.lean ====
section
/-! DEFINITION. What counts as a safe run, the invariant of the machine, and the words in which statements say what a
step leaves as it was. -/

namespace Sys2Proof.Machine

/-! ## Runs -/

/-- `t` is reached from `s` in zero or more steps. -/
inductive Reaches (s : State) : State → Prop
  | refl : Reaches s s
  | step {t u : State} : Reaches s t → step t = .next u → Reaches s u

/-- A run from `s` is safe: whatever turns the agents take, no reached state is Halted by a fault (R33, R265). -/
def SafeFrom (s : State) : Prop :=
  ∀ (turns : List Turn) (t : State), Reaches { s with turns := turns } t → t.faultRecord = none

/-- The outcome after the first `k` turns of an endless schedule of the agents (R14, R226). -/
def scheduleRun (σ : Nat → Turn) (s : State) : Nat → Host.Outcome State Fault Refusal
  | 0 => .next s
  | k + 1 =>
    match scheduleRun σ s k with
    | .next t => step { t with turns := [σ k] }
    | .fault f => .fault f
    | .refused r => .refused r

/-- A fair schedule has infinitely many turns of the engine and of the timer (R226); the keyboard may never deliver
and the host may never stop (R240). -/
def FairSchedule (σ : Nat → Turn) : Prop :=
  (∀ n, ∃ m, n ≤ m ∧ σ m = .engine) ∧ (∀ n, ∃ m, n ≤ m ∧ σ m = .timer)

/-- Execute instructions one after another, stopping at the first fault or refusal. -/
def execAll : List Instr → State → Host.Outcome State Fault Refusal
  | [], s => .next s
  | i :: is, s =>
    match exec i s with
    | .next t => execAll is t
    | .fault f => .fault f
    | .refused r => .refused r

/-! ## The invariant -/

/-- What every step keeps: memory in its canonical form; the font as it was loaded (R36, R41); PC at most 0x10FE, the
largest target of Bnnn (R74, R103); every stack slot at most 0x1000, the largest return address (R102); and in Halted
the record's pc is PC (R212, R213). -/
structure State.Inv (s : State) : Prop where
  memory : s.mem.wf
  font : ∀ a : Nat, a ≤ fontEnd → s.mem.read a = Config.fontByte a
  pc : s.pc.toNat ≤ 0x10FE
  stack : ∀ j : Fin 16, s.stack[j.val].toNat ≤ 0x1000
  record : ∀ f : FaultRecord, s.faultRecord = some f → f.pc = s.pc

/-! ## What is left as it was -/

/-- Every V register but those of `changed` is as before. -/
def SameRegsBut (changed : List Reg) (s t : State) : Prop :=
  ∀ r : Reg, r ∉ changed → t.reg r = s.reg r

/-- SP and every stack slot are as before. -/
def SameStack (s t : State) : Prop := t.sp = s.sp ∧ ∀ j : Fin 16, t.stack[j.val] = s.stack[j.val]

/-- Both timers are as before. -/
def SameTimers (s t : State) : Prop := t.dt = s.dt ∧ t.st = s.st

/-- Every byte of memory reads as before. -/
def SameMemory (s t : State) : Prop := ∀ a : Addr, t.readByte a = s.readByte a

/-- Every pixel is as before. -/
def SameDisplay (s t : State) : Prop := ∀ (px : Column) (py : Row), t.pixel px py = s.pixel px py

/-- The environment's lists and counters, which only the model has, are as before. -/
def SameInputs (s t : State) : Prop :=
  t.turns = s.turns ∧ t.randomBytes = s.randomBytes ∧ t.keyAnswers = s.keyAnswers ∧ t.draws = s.draws ∧ t.polls = s.polls

/-- I, the stack, the timers, memory, the run state and the display are as before. -/
def SameCore (s t : State) : Prop :=
  t.i = s.i ∧ SameStack s t ∧ SameTimers s t ∧ SameMemory s t ∧ t.run = s.run ∧ SameDisplay s t

/-- Everything but the V registers and PC is as before. -/
def SameButRegsPc (s t : State) : Prop := SameCore s t ∧ SameInputs s t

/-- Everything but PC is as before. -/
def SameButPc (s t : State) : Prop := SameRegsBut [] s t ∧ SameButRegsPc s t

/-- `b` is the byte at `a` after the bytes `val 0` to `val (n-1)` were stored at ea(0) to ea(n-1) of state `s`: the one
stored there, or else the one that was there. -/
def StoredOrOld (s : State) (n : Nat) (val : Nat → Byte) (a : Addr) (b : Byte) : Prop :=
  (∀ k < n, a = ea s.i k → b = val k) ∧ ((∀ k < n, a ≠ ea s.i k) → b = s.readByte a)

/-! ## Whose writes reach a register -/

/-- The V registers an instruction may write: its destination, and VF where the instruction defines a flag (R21). -/
def destinations : Instr → List Reg
  | .cls => []
  | .ret => []
  | .sys _ => []
  | .jp _ => []
  | .call _ => []
  | .seImm _ _ => []
  | .sneImm _ _ => []
  | .seReg _ _ => []
  | .ldImm x _ => [x]
  | .addImm x _ => [x]
  | .ldReg x _ => [x]
  | .orReg x _ => [x]
  | .andReg x _ => [x]
  | .xorReg x _ => [x]
  | .addReg x _ => [x, VF]
  | .sub x _ => [x, VF]
  | .shr x _ => [x, VF]
  | .subn x _ => [x, VF]
  | .shl x _ => [x, VF]
  | .sneReg _ _ => []
  | .ldI _ => []
  | .jpV0 _ => []
  | .rnd x _ => [x]
  | .drw _ _ _ => [VF]
  | .skp _ => []
  | .sknp _ => []
  | .ldVxDT x => [x]
  | .ldK _ => []
  | .ldDT _ => []
  | .ldST _ => []
  | .addI _ => [VF]
  | .ldF _ => []
  | .ldB _ => []
  | .storeRegs _ => []
  | .loadRegs x => regsUpTo x

/-! ## Sprites -/

/-- The sprite that Dxyn draws in state `s` has a set bit at pixel (px, py): bit 7 - c of row r is set, and the pixel is
column V[x] + c mod 64 of row V[y] + r mod 32 (R232). -/
def SpriteCovers (s : State) (x y : Reg) (n : Nibble) (px : Column) (py : Row) : Prop :=
  ∃ r < n.toNat, ∃ c < 8, (s.readByte (ea s.i r)).getLsbD (7 - c) = true ∧
    px.val = ((s.reg x).toNat + c) % 64 ∧ py.val = ((s.reg y).toNat + r) % 32

end Sys2Proof.Machine
end

