-- ==== Sys2Proof/Certificates/Slice0/Obligations.lean ====
section
/-! DEFINITION. The statements for the provers. Each docstring names the rule of spec/ that the statement formalises;
where it rests on one of the spec's own decisions (D1 to D36) or on a choice of the model, the docstring says so. -/

open Sys2Proof Sys2Proof.Machine

/-! ## Encoding and decoding (spec/30_encoding.md) -/

/-- R75, R76: decoding the word of any well-formed instruction gives it back, with every operand value. -/
def Obligations.DecodeOfEncodeIsIdentity : Prop :=
  ∀ i : Instr, i.wellFormed = true → decode (encode i) = .ok i

/-- R72, R75: a word that decodes to an instruction is the word of that instruction, which is well-formed; so no bit
of a word is dropped and no two words have one meaning. -/
def Obligations.EncodeOfDecodeIsIdentity : Prop :=
  ∀ (w : Word) (i : Instr), decode w = .ok i → encode i = w ∧ i.wellFormed = true

/-- R77 (the spec's decision D2): the Unsupported words are exactly those with op 5 or 9 and n ≠ 0, op 8 and n in 8 to
D or F, op E and kk not 9E or A1, op F and kk none of the nine. -/
def Obligations.UnsupportedWordsAreTheReservedOnes : Prop :=
  ∀ w : Word, decode w = .error (.unsupported w) ↔
    ((w.extractLsb 15 12 = 0x5#4 ∨ w.extractLsb 15 12 = 0x9#4) ∧ w.extractLsb 3 0 ≠ 0x0#4) ∨
    (w.extractLsb 15 12 = 0x8#4 ∧
      w.extractLsb 3 0 ∈ [0x8#4, 0x9#4, 0xA#4, 0xB#4, 0xC#4, 0xD#4, 0xF#4]) ∨
    (w.extractLsb 15 12 = 0xE#4 ∧ w.extractLsb 7 0 ∉ [0x9E#8, 0xA1#8]) ∨
    (w.extractLsb 15 12 = 0xF#4 ∧
      w.extractLsb 7 0 ∉ [0x07#8, 0x0A#8, 0x15#8, 0x18#8, 0x1E#8, 0x29#8, 0x33#8, 0x55#8, 0x65#8])

/-- Words of spec/95_test_vectors.md, written out, decode to the instructions they stand for. -/
def Obligations.SampleWordsDecode : Prop :=
  decode 0x00E0#16 = .ok .cls ∧ decode 0x00EE#16 = .ok .ret ∧ decode 0x0123#16 = .ok (.sys 0x123) ∧
  decode 0x2300#16 = .ok (.call 0x300) ∧ decode 0x3310#16 = .ok (.seImm 3 0x10) ∧
  decode 0x5120#16 = .ok (.seReg 1 2) ∧ decode 0x8126#16 = .ok (.shr 1 2) ∧ decode 0x8AAE#16 = .ok (.shl 10 10) ∧
  decode 0xB210#16 = .ok (.jpV0 0x210) ∧ decode 0xC30F#16 = .ok (.rnd 3 0x0F) ∧
  decode 0xD015#16 = .ok (.drw 0 1 5) ∧ decode 0xE59E#16 = .ok (.skp 5) ∧ decode 0xF355#16 = .ok (.storeRegs 3) ∧
  decode 0x5121#16 = .error (.unsupported 0x5121#16) ∧ decode 0xF0FF#16 = .error (.unsupported 0xF0FF#16)

/-! ## The step (R14, R73) -/

/-- R73: when it is the engine's turn in Running and the bytes at PC and PC+1, big-endian, decode to an instruction,
the step is `exec` of it, with the engine's turn taken off the list (the model's own field, log entry 1). -/
def Obligations.StepRunsDecodedInstruction : Prop :=
  ∀ (s : State) (i : Instr), s.nextTurn = .engine → s.run = .running → s.pc.toNat ≤ 0x0FFE →
    decode (wordOfBytes (s.readByte (s.pc.setWidth 12)) (s.readByte ((s.pc + 1).setWidth 12))) = .ok i →
    step s = exec i { s with turns := s.turns.tail }

/-- The model's own convention (log entry 10): a table word that decodes to `i`, placed by `withFetchWord`, is what
the very next step runs, on a state `u` that is the given one but for the word at PC (at 0x200 where PC is above
0x0FFE), the run state Running, and the list of turns (log entry 1), off which the engine's turn is taken. -/
def Obligations.PlacedWordIsRunNext : Prop :=
  ∀ (s : State) (w : Nat) (i : Instr), s.mem.wf → decodeTableWord 16 w = some i →
    ∃ u : State, step (s.withFetchWord 16 w) = exec i u ∧
      (s.pc.toNat ≤ 0x0FFE → u.pc = s.pc) ∧ (0x0FFE < s.pc.toNat → u.pc = 0x200) ∧
      (wordOfBytes (u.readByte (u.pc.setWidth 12)) (u.readByte ((u.pc + 1).setWidth 12))).toNat = w % 2 ^ 16 ∧
      (∀ a : Addr, a.toNat ≠ u.pc.toNat → a.toNat ≠ u.pc.toNat + 1 → u.readByte a = s.readByte a) ∧
      u.run = .running ∧ SameRegsBut [] s u ∧ u.i = s.i ∧ SameStack s u ∧ SameTimers s u ∧ SameDisplay s u ∧
      u.randomBytes = s.randomBytes ∧ u.keyAnswers = s.keyAnswers ∧ u.draws = s.draws ∧ u.polls = s.polls ∧
      u.turns = if s.nextTurn = .engine then s.turns.tail else s.turns

/-- R74 (the spec's decision D4): with PC > 0x0FFE the cycle raises PcOutOfRange, reads no word and writes nothing but
the run state; the turn taken off the list is the model's own (log entry 1). -/
def Obligations.FetchOutOfRangeHalts : Prop :=
  ∀ s : State, s.nextTurn = .engine → s.run = .running → 0x0FFE < s.pc.toNat →
    step s = .next { s with
      turns := s.turns.tail
      run := .halted { kind := .pcOutOfRange, pc := s.pc, word := none, info := .none } }

/-- R78 (the spec's decisions D1, D2): a word that decodes to Unsupported, and every 0nnn word, raises
UnsupportedOpcode and writes nothing but the run state; the turn taken off the list is the model's own (log entry 1).
-/
def Obligations.UnsupportedWordHalts : Prop :=
  ∀ (s : State) (w : Word), s.nextTurn = .engine → s.run = .running → s.pc.toNat ≤ 0x0FFE →
    w = wordOfBytes (s.readByte (s.pc.setWidth 12)) (s.readByte ((s.pc + 1).setWidth 12)) →
    (decode w = .error (.unsupported w) ∨ ∃ nnn, decode w = .ok (.sys nnn)) →
    step s = .next { s with
      turns := s.turns.tail
      run := .halted { kind := .unsupportedOpcode, pc := s.pc, word := some w, info := .none } }

/-- R104 (the spec's decision D1): executing 0nnn raises UnsupportedOpcode with its word, and changes nothing else. -/
def Obligations.SysRaisesUnsupportedOpcode : Prop :=
  ∀ (nnn : Addr) (s : State),
    ∃ t, exec (.sys nnn) s = .next t ∧ SameRegsBut [] s t ∧ t.pc = s.pc ∧ t.i = s.i ∧ SameStack s t ∧
      SameTimers s t ∧ SameMemory s t ∧ SameDisplay s t ∧ SameInputs s t ∧
      t.faultRecord = some
        { kind := .unsupportedOpcode, pc := s.pc, word := some (wordNnn 0x0 nnn), info := .none }

/-! ## Reset and boot (spec/70_reset_and_hazards.md) -/

/-- R250 (DT, ST, S, run, FB and the memory outside font and ROM are the spec's decisions D7, D8, D35; the font bytes
are the spec's assumed table, log entry 11): the state after reset. -/
def Obligations.ResetState : Prop :=
  (∀ r : Reg, State.reset.reg r = 0) ∧ State.reset.i = 0 ∧ State.reset.pc = 0x200 ∧ State.reset.sp = 0 ∧
  (∀ j : Fin 16, State.reset.stack[j.val] = 0) ∧ State.reset.dt = 0 ∧ State.reset.st = 0 ∧
  (∀ a : Addr, State.reset.readByte a = if a.toNat ≤ 0x04F then Config.fontByte a.toNat else 0) ∧
  State.reset.run = .running ∧ (∀ px py, State.reset.pixel px py = false) ∧ State.reset.faultRecord = none ∧
  State.reset.soundActive = false

/-- R238, R253: a ROM stream of length L ≤ 0xE00 is written unmodified to 0x200 upward; a longer one raises
RomTooLarge(L) and nothing is loaded or started. That the load is a turn of the host and RomTooLarge a refusal are the
model's (log entries 1, 8 and 9). -/
def Obligations.RomLoadWritesStreamOrRefuses : Prop :=
  ∀ (rom : List Byte) (s : State), s.nextTurn = .reset rom →
    (rom.length ≤ 0xE00 → ∃ t, step s = .next t ∧
      (∀ (k : Nat) (h : k < rom.length), t.readByte (BitVec.ofNat 12 (0x200 + k)) = rom[k]) ∧
      ∀ a : Addr, a.toNat < 0x200 ∨ 0x200 + rom.length ≤ a.toNat → t.readByte a = State.reset.readByte a) ∧
    (0xE00 < rom.length → step s = .refused (.romTooLarge rom.length))

/-- R250, R253, R216 (as a turn of the host it is the model's, log entries 1 and 8): a reset by the host puts
everything but memory as after reset, whatever the state was, Halted and Stopped included; and it keeps the
environment's lists. -/
def Obligations.HostResetRebuildsState : Prop :=
  ∀ (rom : List Byte) (s : State), s.nextTurn = .reset rom → rom.length ≤ 0xE00 →
    ∃ t, step s = .next t ∧ SameRegsBut [] State.reset t ∧ t.i = 0 ∧ t.pc = 0x200 ∧
      SameStack State.reset t ∧ t.dt = 0 ∧ t.st = 0 ∧ t.run = .running ∧ SameDisplay State.reset t ∧
      t.turns = s.turns.tail ∧ t.randomBytes = s.randomBytes ∧ t.keyAnswers = s.keyAnswers ∧
      t.draws = s.draws ∧ t.polls = s.polls

/-! ## Control transfer (spec/40_control_flow.md) -/

/-- R101: 1nnn sets PC to nnn and changes nothing else. -/
def Obligations.JumpSetsPc : Prop :=
  ∀ (nnn : Addr) (s : State), decode (wordNnn 0x1 nnn) = .ok (.jp nnn) ∧
    ∃ t, exec (.jp nnn) s = .next t ∧ t.pc.toNat = nnn.toNat ∧ SameButPc s t

/-- R103: Bnnn sets PC to nnn + V0 mod 2^16, not reduced mod 0x1000, and changes nothing else. -/
def Obligations.JumpWithOffsetAddsV0 : Prop :=
  ∀ (nnn : Addr) (s : State), decode (wordNnn 0xB nnn) = .ok (.jpV0 nnn) ∧
    ∃ t, exec (.jpV0 nnn) s = .next t ∧ t.pc.toNat = nnn.toNat + (s.reg 0).toNat ∧ SameButPc s t

/-- R102: 2nnn pushes p + 2 and jumps to nnn when SP < 16; at SP = 16 it raises StackOverflow(p, word) and writes
nothing else. -/
def Obligations.CallPushesReturnAddress : Prop :=
  ∀ (nnn : Addr) (s : State), decode (wordNnn 0x2 nnn) = .ok (.call nnn) ∧
    (∀ j : Fin 16, s.sp.val = j.val → ∃ t, exec (.call nnn) s = .next t ∧
      t.stack[j.val] = s.pc + 2 ∧ (∀ k : Fin 16, k ≠ j → t.stack[k.val] = s.stack[k.val]) ∧
      t.sp.val = s.sp.val + 1 ∧ t.pc.toNat = nnn.toNat ∧
      SameRegsBut [] s t ∧ t.i = s.i ∧ SameTimers s t ∧ SameMemory s t ∧ t.run = s.run ∧ SameDisplay s t ∧
      SameInputs s t) ∧
    (s.sp.val = 16 → ∃ f : FaultRecord, exec (.call nnn) s = .next { s with run := .halted f } ∧
      f.kind = .stackOverflow ∧ f.pc = s.pc ∧ f.word = some (wordNnn 0x2 nnn))

/-- R100: 00EE sets PC to the value in the slot below SP and takes 1 from SP when SP > 0, and the slot keeps its
value; at SP = 0 it raises StackUnderflow(p, 0x00EE) and writes nothing else. -/
def Obligations.ReturnPopsPc : Prop :=
  ∀ s : State, decode 0x00EE#16 = .ok .ret ∧
    (∀ j : Fin 16, s.sp.val = j.val + 1 → ∃ t, exec .ret s = .next t ∧
      t.pc = s.stack[j.val] ∧ t.sp.val = j.val ∧ (∀ k : Fin 16, t.stack[k.val] = s.stack[k.val]) ∧
      SameRegsBut [] s t ∧ t.i = s.i ∧ SameTimers s t ∧ SameMemory s t ∧ t.run = s.run ∧ SameDisplay s t ∧
      SameInputs s t) ∧
    (s.sp.val = 0 → ∃ f : FaultRecord, exec .ret s = .next { s with run := .halted f } ∧
      f.kind = .stackUnderflow ∧ f.pc = s.pc ∧ f.word = some 0x00EE#16)

/-- R102, R100 (the source's property W2, for any nesting): calls to any list of targets that fits the stack, followed
by as many returns, leave SP as it was, every slot below SP as it was, and PC after the first call. -/
def Obligations.NestedCallsReturnInOrder : Prop :=
  ∀ (s : State) (first : Addr) (rest : List Addr), s.sp.val + (rest.length + 1) ≤ 16 →
    ∃ t, execAll ((first :: rest).map .call ++ List.replicate (rest.length + 1) .ret) s = .next t ∧
      t.sp = s.sp ∧ t.pc = s.pc + 2 ∧ t.run = s.run ∧ SameRegsBut [] s t ∧
      ∀ j : Fin 16, j.val < s.sp.val → t.stack[j.val] = s.stack[j.val]

/-- R102 (the source's property W3): from an empty stack exactly 16 nested calls succeed, and the 17th raises
StackOverflow with SP = 16. -/
def Obligations.SeventeenthNestedCallOverflows : Prop :=
  ∀ (s : State) (targets : List Addr) (last : Addr), s.sp = 0 → s.run = .running → targets.length = 16 →
    ∃ t, execAll (targets.map .call) s = .next t ∧ t.sp = 16 ∧ t.run = .running ∧
      execAll ((targets ++ [last]).map .call) s = .next { t with
        run := .halted { kind := .stackOverflow, pc := t.pc, word := some (wordNnn 0x2 last), info := .none } }

/-! ## Conditional skips (spec/41_conditional_skip.md) -/

/-- R120, R121, R122, R123: 3xkk skips exactly when V[x] = kk, 4xkk exactly when V[x] ≠ kk, 5xy0 exactly when V[x] =
V[y], 9xy0 exactly when V[x] ≠ V[y]; nothing but PC changes. -/
def Obligations.SkipsFollowComparisons : Prop :=
  ∀ (x y : Reg) (kk : Byte) (s : State),
    (decode (wordXkk 0x3 x kk) = .ok (.seImm x kk) ∧ ∃ t, exec (.seImm x kk) s = .next t ∧ SameButPc s t ∧
      (s.reg x = kk → t.pc = s.pc + 4) ∧ (s.reg x ≠ kk → t.pc = s.pc + 2)) ∧
    (decode (wordXkk 0x4 x kk) = .ok (.sneImm x kk) ∧ ∃ t, exec (.sneImm x kk) s = .next t ∧ SameButPc s t ∧
      (s.reg x ≠ kk → t.pc = s.pc + 4) ∧ (s.reg x = kk → t.pc = s.pc + 2)) ∧
    (decode (wordXyn 0x5 x y 0x0) = .ok (.seReg x y) ∧ ∃ t, exec (.seReg x y) s = .next t ∧ SameButPc s t ∧
      (s.reg x = s.reg y → t.pc = s.pc + 4) ∧ (s.reg x ≠ s.reg y → t.pc = s.pc + 2)) ∧
    (decode (wordXyn 0x9 x y 0x0) = .ok (.sneReg x y) ∧ ∃ t, exec (.sneReg x y) s = .next t ∧ SameButPc s t ∧
      (s.reg x ≠ s.reg y → t.pc = s.pc + 4) ∧ (s.reg x = s.reg y → t.pc = s.pc + 2))

/-- R124, R125, R127 (the free answer is the spec's decision D29; its list and counter are the model's, log entry 6):
with V[x] a key number, one `is_pressed` call answers some `b`, the environment's listed answer where it lists one;
Ex9E skips exactly when `b`, ExA1 exactly when not `b`; nothing else changes but the call that was made. -/
def Obligations.KeySkipFollowsKeyState : Prop :=
  ∀ (x : Reg) (s : State), (s.reg x).toNat ≤ 0x0F →
    ∃ (b : Bool) (t u : State), (∀ a rest, s.keyAnswers = a :: rest → b = a) ∧
      exec (.skp x) s = .next t ∧ exec (.sknp x) s = .next u ∧
      t.pc = (if b then s.pc + 4 else s.pc + 2) ∧ u.pc = (if b then s.pc + 2 else s.pc + 4) ∧
      SameRegsBut [] s t ∧ SameCore s t ∧ SameRegsBut [] s u ∧ SameCore s u ∧
      t.keyAnswers = s.keyAnswers.tail ∧ t.polls = s.polls + 1 ∧ t.turns = s.turns ∧
      t.randomBytes = s.randomBytes ∧ t.draws = s.draws ∧
      u.keyAnswers = s.keyAnswers.tail ∧ u.polls = s.polls + 1 ∧ u.turns = s.turns ∧
      u.randomBytes = s.randomBytes ∧ u.draws = s.draws

/-- R127 (the spec's decision D14): a key skip with V[x] > 0x0F raises InvalidKey(p, word, V[x]), makes no call and
changes nothing else. -/
def Obligations.KeySkipRaisesInvalidKey : Prop :=
  ∀ (x : Reg) (s : State), 0x0F < (s.reg x).toNat →
    exec (.skp x) s = .next { s with
      run := .halted { kind := .invalidKey, pc := s.pc, word := some (wordXkk 0xE x 0x9E), info := .key (s.reg x) } } ∧
    exec (.sknp x) s = .next { s with
      run := .halted { kind := .invalidKey, pc := s.pc, word := some (wordXkk 0xE x 0xA1), info := .key (s.reg x) } }

/-! ## Register loads and ALU (spec/42_register_alu.md) -/

/-- R140: 6xkk puts kk in V[x], for every x and kk. -/
def Obligations.LoadImmediate : Prop :=
  ∀ (x : Reg) (kk : Byte) (s : State), decode (wordXkk 0x6 x kk) = .ok (.ldImm x kk) ∧
    ∃ t, exec (.ldImm x kk) s = .next t ∧ t.reg x = kk ∧ SameRegsBut [x] s t ∧ t.pc = s.pc + 2 ∧ SameButRegsPc s t

/-- R141: 7xkk adds kk mod 2^8; VF is written only when it is the destination, and then as the sum. -/
def Obligations.AddImmediateWrapsWithoutFlag : Prop :=
  ∀ (x : Reg) (kk : Byte) (s : State), decode (wordXkk 0x7 x kk) = .ok (.addImm x kk) ∧
    ∃ t, exec (.addImm x kk) s = .next t ∧ (t.reg x).toNat = ((s.reg x).toNat + kk.toNat) % 2 ^ 8 ∧
      SameRegsBut [x] s t ∧ t.pc = s.pc + 2 ∧ SameButRegsPc s t

/-- R143: 8xy0 copies V[y] to V[x]. -/
def Obligations.RegisterCopy : Prop :=
  ∀ (x y : Reg) (s : State), decode (wordXyn 0x8 x y 0x0) = .ok (.ldReg x y) ∧
    ∃ t, exec (.ldReg x y) s = .next t ∧ t.reg x = s.reg y ∧ SameRegsBut [x] s t ∧ t.pc = s.pc + 2 ∧ SameButRegsPc s t

/-- R144, R145, R146 (that VF is left alone is the spec's decision D10): OR, AND and XOR, bit by bit; every register
but V[x] is as before, VF among them. -/
def Obligations.LogicOperations : Prop :=
  ∀ (x y : Reg) (s : State),
    decode (wordXyn 0x8 x y 0x1) = .ok (.orReg x y) ∧ decode (wordXyn 0x8 x y 0x2) = .ok (.andReg x y) ∧
    decode (wordXyn 0x8 x y 0x3) = .ok (.xorReg x y) ∧
    (∃ t, exec (.orReg x y) s = .next t ∧
      (∀ k < 8, (t.reg x).getLsbD k = ((s.reg x).getLsbD k || (s.reg y).getLsbD k)) ∧
      SameRegsBut [x] s t ∧ t.pc = s.pc + 2 ∧ SameButRegsPc s t) ∧
    (∃ t, exec (.andReg x y) s = .next t ∧
      (∀ k < 8, (t.reg x).getLsbD k = ((s.reg x).getLsbD k && (s.reg y).getLsbD k)) ∧
      SameRegsBut [x] s t ∧ t.pc = s.pc + 2 ∧ SameButRegsPc s t) ∧
    (∃ t, exec (.xorReg x y) s = .next t ∧
      (∀ k < 8, (t.reg x).getLsbD k = ((s.reg x).getLsbD k ^^ (s.reg y).getLsbD k)) ∧
      SameRegsBut [x] s t ∧ t.pc = s.pc + 2 ∧ SameButRegsPc s t)

/-- R148: 8xy4 puts the sum mod 2^8 in V[x] and then the carry in VF, so with x = F the carry is what stays. -/
def Obligations.AddRegistersSetsCarry : Prop :=
  ∀ (x y : Reg) (s : State), decode (wordXyn 0x8 x y 0x4) = .ok (.addReg x y) ∧
    ∃ t, exec (.addReg x y) s = .next t ∧
      (x ≠ VF → (t.reg x).toNat = ((s.reg x).toNat + (s.reg y).toNat) % 2 ^ 8) ∧
      (t.reg VF).toNat = (if (s.reg x).toNat + (s.reg y).toNat > 255 then 1 else 0) ∧
      SameRegsBut [x, VF] s t ∧ t.pc = s.pc + 2 ∧ SameButRegsPc s t

/-- R149, R151 (the flag at equal operands is the spec's decision D9): the difference mod 2^8 in V[x], then NOT borrow
in VF. -/
def Obligations.SubtractionsSetNotBorrow : Prop :=
  ∀ (x y : Reg) (s : State),
    decode (wordXyn 0x8 x y 0x5) = .ok (.sub x y) ∧ decode (wordXyn 0x8 x y 0x7) = .ok (.subn x y) ∧
    (∃ t, exec (.sub x y) s = .next t ∧
      (x ≠ VF → ((t.reg x).toNat : Int) = ((s.reg x).toNat - (s.reg y).toNat : Int) % 2 ^ 8) ∧
      (t.reg VF).toNat = (if (s.reg x).toNat ≥ (s.reg y).toNat then 1 else 0) ∧
      SameRegsBut [x, VF] s t ∧ t.pc = s.pc + 2 ∧ SameButRegsPc s t) ∧
    (∃ t, exec (.subn x y) s = .next t ∧
      (x ≠ VF → ((t.reg x).toNat : Int) = ((s.reg y).toNat - (s.reg x).toNat : Int) % 2 ^ 8) ∧
      (t.reg VF).toNat = (if (s.reg y).toNat ≥ (s.reg x).toNat then 1 else 0) ∧
      SameRegsBut [x, VF] s t ∧ t.pc = s.pc + 2 ∧ SameButRegsPc s t)

/-- R150, R152: the shifts by one, for every y, which is not read; VF is the bit shifted out, written last. -/
def Obligations.ShiftsSetShiftedOutBit : Prop :=
  ∀ (x y : Reg) (s : State),
    decode (wordXyn 0x8 x y 0x6) = .ok (.shr x y) ∧ decode (wordXyn 0x8 x y 0xE) = .ok (.shl x y) ∧
    (∃ t, exec (.shr x y) s = .next t ∧
      (x ≠ VF → (t.reg x).toNat = (s.reg x).toNat / 2) ∧ (t.reg VF).toNat = (s.reg x).toNat % 2 ∧
      SameRegsBut [x, VF] s t ∧ t.pc = s.pc + 2 ∧ SameButRegsPc s t) ∧
    (∃ t, exec (.shl x y) s = .next t ∧
      (x ≠ VF → (t.reg x).toNat = (s.reg x).toNat * 2 % 2 ^ 8) ∧ (t.reg VF).toNat = (s.reg x).toNat / 2 ^ 7 ∧
      SameRegsBut [x, VF] s t ∧ t.pc = s.pc + 2 ∧ SameButRegsPc s t)

/-- R153 (the free draw is the spec's decision D28; its list and counter are the model's, log entry 5): one draw `r`,
the environment's listed byte where it lists one, any byte otherwise; V[x] is `r & kk`. -/
def Obligations.RandomByteIsMasked : Prop :=
  ∀ (x : Reg) (kk : Byte) (s : State), decode (wordXkk 0xC x kk) = .ok (.rnd x kk) ∧
    ∃ (r : Byte) (t : State), (∀ a rest, s.randomBytes = a :: rest → r = a) ∧
      exec (.rnd x kk) s = .next t ∧ t.reg x = r &&& kk ∧ SameRegsBut [x] s t ∧ t.pc = s.pc + 2 ∧ SameCore s t ∧
      t.randomBytes = s.randomBytes.tail ∧ t.draws = s.draws + 1 ∧ t.turns = s.turns ∧
      t.keyAnswers = s.keyAnswers ∧ t.polls = s.polls

/-! ## Address register and memory (spec/43_index_and_memory.md) -/

/-- R170: Annn puts nnn in I. -/
def Obligations.LoadIndex : Prop :=
  ∀ (nnn : Addr) (s : State), decode (wordNnn 0xA nnn) = .ok (.ldI nnn) ∧
    ∃ t, exec (.ldI nnn) s = .next t ∧ t.i.toNat = nnn.toNat ∧ t.pc = s.pc + 2 ∧ SameRegsBut [] s t ∧
      SameStack s t ∧ SameTimers s t ∧ SameMemory s t ∧ t.run = s.run ∧ SameDisplay s t ∧ SameInputs s t

/-- R171 (that the flag is always written and written last are the spec's decisions D11, D12): Fx1E wraps I at 16
bits; VF is 1 when the unbounded sum passes 0x0FFF, else 0. -/
def Obligations.AddIndexSetsOverflow : Prop :=
  ∀ (x : Reg) (s : State), decode (wordXkk 0xF x 0x1E) = .ok (.addI x) ∧
    ∃ t, exec (.addI x) s = .next t ∧ t.i.toNat = (s.i.toNat + (s.reg x).toNat) % 2 ^ 16 ∧
      (t.reg VF).toNat = (if s.i.toNat + (s.reg x).toNat > 0x0FFF then 1 else 0) ∧
      SameRegsBut [VF] s t ∧ t.pc = s.pc + 2 ∧
      SameStack s t ∧ SameTimers s t ∧ SameMemory s t ∧ t.run = s.run ∧ SameDisplay s t ∧ SameInputs s t

/-- R172 (on the full byte, the spec's decision D30): Fx29 puts 5·V[x] in I; for V[x] ≤ 15 the five bytes there, as
after reset, are glyph V[x] of FONT. -/
def Obligations.LoadGlyphAddress : Prop :=
  ∀ (x : Reg) (s : State), decode (wordXkk 0xF x 0x29) = .ok (.ldF x) ∧
    ∃ t, exec (.ldF x) s = .next t ∧ t.i.toNat = 5 * (s.reg x).toNat ∧ t.pc = s.pc + 2 ∧ SameRegsBut [] s t ∧
      SameStack s t ∧ SameTimers s t ∧ SameMemory s t ∧ t.run = s.run ∧ SameDisplay s t ∧ SameInputs s t ∧
      ((s.reg x).toNat ≤ 15 → ∀ k < 5,
        State.reset.readByte (BitVec.ofNat 12 (t.i.toNat + k)) = Config.fontByte (5 * (s.reg x).toNat + k))

/-- R173 (that I is unchanged is the spec's decision D13; the wrap of ea is D3): with no target in the font, Fx33
stores the hundreds, tens and units of V[x] at ea(0), ea(1), ea(2), and every other byte reads as before. -/
def Obligations.StoreBcdWritesThreeDigits : Prop :=
  ∀ (x : Reg) (s : State), s.mem.wf → (∀ k < 3, 0x04F < (ea s.i k).toNat) →
    ∃ t, exec (.ldB x) s = .next t ∧
      (t.readByte (ea s.i 0)).toNat = (s.reg x).toNat / 100 ∧
      (t.readByte (ea s.i 1)).toNat = (s.reg x).toNat / 10 % 10 ∧
      (t.readByte (ea s.i 2)).toNat = (s.reg x).toNat % 10 ∧
      (∀ a : Addr, a ∉ [ea s.i 0, ea s.i 1, ea s.i 2] → t.readByte a = s.readByte a) ∧
      t.pc = s.pc + 2 ∧ SameRegsBut [] s t ∧ t.i = s.i ∧
      SameStack s t ∧ SameTimers s t ∧ t.run = s.run ∧ SameDisplay s t ∧ SameInputs s t

/-- R174 (that I is unchanged is the spec's decision D13; the wrap of ea is D3): with no target in the font, Fx55
stores V[i] at ea(i) for i = 0 to x, and every other byte reads as before. -/
def Obligations.StoreRegistersWritesEachByte : Prop :=
  ∀ (x : Reg) (s : State), s.mem.wf → (∀ r : Reg, r ≤ x → 0x04F < (ea s.i r.val).toNat) →
    ∃ t, exec (.storeRegs x) s = .next t ∧
      (∀ r : Reg, r ≤ x → t.readByte (ea s.i r.val) = s.reg r) ∧
      (∀ a : Addr, (∀ r : Reg, r ≤ x → a ≠ ea s.i r.val) → t.readByte a = s.readByte a) ∧
      t.pc = s.pc + 2 ∧ SameRegsBut [] s t ∧ t.i = s.i ∧
      SameStack s t ∧ SameTimers s t ∧ t.run = s.run ∧ SameDisplay s t ∧ SameInputs s t

/-- R56 (the spec's decision D6): if ea(k) is the first target of Fx33 or Fx55, in write order, that lies in the font,
the instruction raises FontWrite(ea(k)) and writes nothing else. -/
def Obligations.StoreIntoFontFaults : Prop :=
  ∀ (x : Reg) (s : State) (k : Nat), (ea s.i k).toNat ≤ 0x04F → (∀ j < k, 0x04F < (ea s.i j).toNat) →
    (k < 3 → exec (.ldB x) s = .next { s with
      run := .halted
        { kind := .fontWrite, pc := s.pc, word := some (wordXkk 0xF x 0x33), info := .address (ea s.i k) } }) ∧
    (k ≤ x.val → exec (.storeRegs x) s = .next { s with
      run := .halted
        { kind := .fontWrite, pc := s.pc, word := some (wordXkk 0xF x 0x55), info := .address (ea s.i k) } })

/-- R175 (that I is unchanged is the spec's decision D13; the wrap of ea is D3): Fx65 loads V[i] from ea(i) for i = 0
to x, VF among them when x = F, from any address, the font included; registers above x are as before. -/
def Obligations.LoadRegistersReadsEachByte : Prop :=
  ∀ (x : Reg) (s : State), decode (wordXkk 0xF x 0x65) = .ok (.loadRegs x) ∧
    ∃ t, exec (.loadRegs x) s = .next t ∧
      (∀ r : Reg, r ≤ x → t.reg r = s.readByte (ea s.i r.val)) ∧ (∀ r : Reg, x < r → t.reg r = s.reg r) ∧
      t.pc = s.pc + 2 ∧ SameButRegsPc s t

/-- R174, R175 (the source's property W7): what Fx55 stored, Fx65 loads back from any later state with the same I and
memory, whatever its registers hold. -/
def Obligations.StoreThenLoadRestoresRegisters : Prop :=
  ∀ (x : Reg) (s t u : State), s.mem.wf → (∀ r : Reg, r ≤ x → 0x04F < (ea s.i r.val).toNat) →
    exec (.storeRegs x) s = .next t → u.i = t.i → SameMemory t u →
    ∃ v, exec (.loadRegs x) u = .next v ∧ ∀ r : Reg, r ≤ x → v.reg r = s.reg r

/-- R63, R70 (the spec's decision D21): the byte that Fx55 or Fx33 stores at an address is what the next fetch reads
there, as the high or the low byte of its word, beside a byte stored with it or one that was there; so the engine's
next turn runs what the two bytes at PC, big-endian, decode to. The turn taken off the list is the model's own (log
entry 1). -/
def Obligations.StoredBytesAreFetchedNext : Prop :=
  ∀ (x : Reg) (s t u : State) (hi lo : Byte) (i : Instr), s.mem.wf →
    u.mem = t.mem → u.run = .running → u.nextTurn = .engine → u.pc.toNat ≤ 0x0FFE →
    decode (wordOfBytes hi lo) = .ok i →
    ((∀ r : Reg, r ≤ x → 0x04F < (ea s.i r.val).toNat) → exec (.storeRegs x) s = .next t →
      StoredOrOld s (x.val + 1) (fun k => s.reg (Fin.ofNat 16 k)) (u.pc.setWidth 12) hi →
      StoredOrOld s (x.val + 1) (fun k => s.reg (Fin.ofNat 16 k)) ((u.pc + 1).setWidth 12) lo →
      step u = exec i { u with turns := u.turns.tail }) ∧
    ((∀ k < 3, 0x04F < (ea s.i k).toNat) → exec (.ldB x) s = .next t →
      StoredOrOld s 3 (fun k => BitVec.ofNat 8 ((s.reg x).toNat / 10 ^ (2 - k) % 10)) (u.pc.setWidth 12) hi →
      StoredOrOld s 3 (fun k => BitVec.ofNat 8 ((s.reg x).toNat / 10 ^ (2 - k) % 10)) ((u.pc + 1).setWidth 12) lo →
      step u = exec i { u with turns := u.turns.tail })

/-! ## Display, timers and keys (spec/44_timers_display_keys.md) -/

/-- R190: 00E0 clears every pixel and writes no register. -/
def Obligations.ClearScreenClearsEveryPixel : Prop :=
  ∀ s : State, decode 0x00E0#16 = .ok .cls ∧
    ∃ t, exec .cls s = .next t ∧ (∀ px py, t.pixel px py = false) ∧ t.pc = s.pc + 2 ∧ SameRegsBut [] s t ∧
      t.i = s.i ∧ SameStack s t ∧ SameTimers s t ∧ SameMemory s t ∧ t.run = s.run ∧ SameInputs s t

/-- R194, R232 (bit order and axes are the spec's decision D25, the order of the VF write D11): Dxyn inverts exactly
the pixels the sprite covers; VF is 1 exactly when one of them was set, and 0 otherwise. -/
def Obligations.DrawTogglesCoveredPixels : Prop :=
  ∀ (x y : Reg) (n : Nibble) (s : State), decode (wordXyn 0xD x y n) = .ok (.drw x y n) ∧
    ∃ t, exec (.drw x y n) s = .next t ∧
      (∀ px py, SpriteCovers s x y n px py → t.pixel px py = !s.pixel px py) ∧
      (∀ px py, ¬ SpriteCovers s x y n px py → t.pixel px py = s.pixel px py) ∧
      ((∃ px py, SpriteCovers s x y n px py ∧ s.pixel px py = true) → t.reg VF = 1) ∧
      ((∀ px py, SpriteCovers s x y n px py → s.pixel px py = false) → t.reg VF = 0) ∧
      SameRegsBut [VF] s t ∧ t.pc = s.pc + 2 ∧ t.i = s.i ∧ SameStack s t ∧ SameTimers s t ∧ SameMemory s t ∧
      t.run = s.run ∧ SameInputs s t

/-- R232 (the source's property W9; that R194's derived corner holds only over dark pixels is log entry 15): drawing
the same sprite again at the same place restores every pixel. The second draw reports a collision exactly when some
covered pixel was off before the first; so on a dark display exactly when the sprite has a set bit. -/
def Obligations.DrawingTwiceRestoresDisplay : Prop :=
  ∀ (x y : Reg) (n : Nibble) (s t u : State), exec (.drw x y n) s = .next t →
    SameDisplay t u → u.reg x = s.reg x → u.reg y = s.reg y → u.i = s.i → SameMemory s u →
    ∃ v, exec (.drw x y n) u = .next v ∧ SameDisplay s v ∧
      ((∃ px py, SpriteCovers s x y n px py ∧ s.pixel px py = false) → v.reg VF = 1) ∧
      ((∀ px py, SpriteCovers s x y n px py → s.pixel px py = true) → v.reg VF = 0) ∧
      ((∀ px py, s.pixel px py = false) → (∃ r < n.toNat, s.readByte (ea s.i r) ≠ 0) → v.reg VF = 1)

/-- R191: Fx07 reads DT into V[x] and leaves DT. -/
def Obligations.ReadDelayTimer : Prop :=
  ∀ (x : Reg) (s : State), decode (wordXkk 0xF x 0x07) = .ok (.ldVxDT x) ∧
    ∃ t, exec (.ldVxDT x) s = .next t ∧ t.reg x = s.dt ∧ SameRegsBut [x] s t ∧ t.pc = s.pc + 2 ∧ SameButRegsPc s t

/-- R192, R193: Fx15 writes V[x] to DT and Fx18 to ST; the sound is active after Fx18 exactly when V[x] > 0. -/
def Obligations.SetTimers : Prop :=
  ∀ (x : Reg) (s : State),
    decode (wordXkk 0xF x 0x15) = .ok (.ldDT x) ∧ decode (wordXkk 0xF x 0x18) = .ok (.ldST x) ∧
    (∃ t, exec (.ldDT x) s = .next t ∧ t.dt = s.reg x ∧ t.st = s.st ∧ t.pc = s.pc + 2 ∧ SameRegsBut [] s t ∧
      t.i = s.i ∧ SameStack s t ∧ SameMemory s t ∧ t.run = s.run ∧ SameDisplay s t ∧ SameInputs s t) ∧
    (∃ t, exec (.ldST x) s = .next t ∧ t.st = s.reg x ∧ t.dt = s.dt ∧ t.pc = s.pc + 2 ∧ SameRegsBut [] s t ∧
      t.i = s.i ∧ SameStack s t ∧ SameMemory s t ∧ t.run = s.run ∧ SameDisplay s t ∧ SameInputs s t ∧
      (t.soundActive = true ↔ 0 < (s.reg x).toNat))

/-- R198 (when PC advances is the spec's decision D15): Fx0A enters AwaitingKey(x) and advances PC; V[x] waits for the
press. -/
def Obligations.KeyWaitEntersAwaitingKey : Prop :=
  ∀ (x : Reg) (s : State), decode (wordXkk 0xF x 0x0A) = .ok (.ldK x) ∧
    ∃ t, exec (.ldK x) s = .next t ∧ t.run = .awaitingKey x ∧ t.pc = s.pc + 2 ∧ SameRegsBut [] s t ∧
      t.i = s.i ∧ SameStack s t ∧ SameTimers s t ∧ SameMemory s t ∧ SameDisplay s t ∧ SameInputs s t

/-- R198, R199 (any key the environment chooses is the spec's decision D34, that only a press while waiting counts
D15; the turns are the model's, log entries 1 and 2): a press in AwaitingKey(x) writes the key to V[x], sets Running,
and changes nothing else, PC included; a press that nothing waits for, and a turn of the engine while it waits, change
nothing but the list of turns. -/
def Obligations.KeyPressIsDeliveredOnlyWhileWaiting : Prop :=
  ∀ (x : Reg) (k : Key) (s : State),
    (s.nextTurn = .key k → s.run = .awaitingKey x →
      ∃ t, step s = .next t ∧ (t.reg x).toNat = k.val ∧ t.run = .running ∧ SameRegsBut [x] s t ∧ t.pc = s.pc ∧
        t.i = s.i ∧ SameStack s t ∧ SameTimers s t ∧ SameMemory s t ∧ SameDisplay s t ∧ t.turns = s.turns.tail ∧
        t.randomBytes = s.randomBytes ∧ t.keyAnswers = s.keyAnswers ∧ t.draws = s.draws ∧ t.polls = s.polls) ∧
    (s.nextTurn = .key k → s.run = .running → step s = .next { s with turns := s.turns.tail }) ∧
    (s.nextTurn = .engine → s.run = .awaitingKey x → step s = .next { s with turns := s.turns.tail })

/-! ## Timer, host and run state (spec/60_exceptions.md) -/

/-- R225 (that none runs in Halted and Stopped also R216, the spec's decision D36): a tick, in Running and in
AwaitingKey only, takes 1 from each timer that is above 0 and changes nothing else of the machine; the list off which
the turn is taken is the model's own (log entry 1). -/
def Obligations.TickDecrementsBothTimers : Prop :=
  ∀ s : State, s.nextTurn = .timer →
    (s.run = .running ∨ (∃ x, s.run = .awaitingKey x) →
      ∃ t, step s = .next t ∧ t.dt.toNat = s.dt.toNat - 1 ∧ t.st.toNat = s.st.toNat - 1 ∧
        SameRegsBut [] s t ∧ t.pc = s.pc ∧ t.i = s.i ∧ SameStack s t ∧ SameMemory s t ∧ t.run = s.run ∧
        SameDisplay s t ∧ t.turns = s.turns.tail ∧ t.randomBytes = s.randomBytes ∧ t.keyAnswers = s.keyAnswers ∧
        t.draws = s.draws ∧ t.polls = s.polls) ∧
    ((∃ f, s.run = .halted f) ∨ s.run = .stopped → ∀ t, step s ≠ .next t)

/-- R239 (the spec's decision D26): the stop signal sets Stopped from Running or AwaitingKey and writes nothing else
of the machine; the list off which the turn is taken is the model's own (log entry 1). -/
def Obligations.StopSignalStops : Prop :=
  ∀ s : State, s.nextTurn = .stop → s.run = .running ∨ (∃ x, s.run = .awaitingKey x) →
    step s = .next { s with turns := s.turns.tail, run := .stopped }

/-- R216 (the spec's decisions D19, D36; the outcome `fault` and the list of turns are the model's, log entries 3 and
1): Halted and Stopped are terminal, and only a reset by the host leaves them. -/
def Obligations.HaltedAndStoppedAreTerminal : Prop :=
  ∀ s : State, (∀ rom, s.nextTurn ≠ .reset rom) →
    (∀ f, s.run = .halted f → step s = .fault (.halted f)) ∧ (s.run = .stopped → step s = .fault .stopped)

/-- R213, R212 (the record is the spec's decision D17): a cycle that raises a fault writes nothing but the run state:
no register, no memory byte, no pixel, no draw, no key call; PC stays, and the record holds it. The list off which the
engine's turn is taken is the model's own (log entry 1). -/
def Obligations.FaultsArePreciseAndAtomic : Prop :=
  ∀ (s t : State) (f : FaultRecord), s.run = .running → step s = .next t → t.run = .halted f →
    t = { s with turns := s.turns.tail, run := .halted f } ∧ f.pc = s.pc

/-- R210, R214 (the spec's decisions D1, D4, D6, D14, D17, D18): the causes of every fault that a step raises: its
kind, its word, and the condition that holds; the fetch is checked first, then the decoding, then the instruction's
own check. -/
def Obligations.FaultCausesAreTheListedOnes : Prop :=
  ∀ (s t : State) (f : FaultRecord), s.run = .running → step s = .next t → t.run = .halted f →
    (f.kind = .pcOutOfRange ∧ f.word = none ∧ f.info = .none ∧ 0x0FFE < s.pc.toNat) ∨
    ∃ w : Word, s.pc.toNat ≤ 0x0FFE ∧ f.word = some w ∧
      w = wordOfBytes (s.readByte (s.pc.setWidth 12)) (s.readByte ((s.pc + 1).setWidth 12)) ∧
      ((f.kind = .unsupportedOpcode ∧ f.info = .none ∧
          (decode w = .error (.unsupported w) ∨ ∃ nnn, decode w = .ok (.sys nnn))) ∨
       (f.kind = .stackOverflow ∧ f.info = .none ∧ s.sp.val = 16 ∧ ∃ nnn, decode w = .ok (.call nnn)) ∨
       (f.kind = .stackUnderflow ∧ f.info = .none ∧ s.sp.val = 0 ∧ decode w = .ok .ret) ∨
       (f.kind = .fontWrite ∧ ∃ x k, f.info = .address (ea s.i k) ∧ (ea s.i k).toNat ≤ 0x04F ∧
          (∀ j < k, 0x04F < (ea s.i j).toNat) ∧
          ((k < 3 ∧ decode w = .ok (.ldB x)) ∨ (k ≤ x.val ∧ decode w = .ok (.storeRegs x)))) ∨
       (f.kind = .invalidKey ∧ ∃ x, f.info = .key (s.reg x) ∧ 0x0F < (s.reg x).toNat ∧
          (decode w = .ok (.skp x) ∨ decode w = .ok (.sknp x))))

/-- R210, R212: every instruction, in every state, answers a next state (a fault of the spec is the entry to Halted,
log entry 4, and nothing is refused); and an instruction that the fault table does not name raises no fault, whatever
its operands. -/
def Obligations.OnlyNamedInstructionsCanFault : Prop :=
  ∀ (i : Instr) (s : State), ∃ t, exec i s = .next t ∧
    (i ≠ .ret → (∀ nnn, i ≠ .sys nnn) → (∀ nnn, i ≠ .call nnn) → (∀ x, i ≠ .ldB x) → (∀ x, i ≠ .storeRegs x) →
      (∀ x, i ≠ .skp x) → (∀ x, i ≠ .sknp x) → t.run = s.run ∨ ∃ x, i = .ldK x ∧ t.run = .awaitingKey x)

/-! ## Rules of the whole machine -/

/-- R25: the PC after every instruction that completes, and PC = p after one that raises a fault. -/
def Obligations.PcAdvanceOfEveryInstruction : Prop :=
  ∀ (i : Instr) (s t : State), (∀ f, s.run ≠ .halted f) → exec i s = .next t →
    ((∃ f, t.run = .halted f) → t.pc = s.pc) ∧
    ((∀ f, t.run ≠ .halted f) →
      match i with
      | .jp nnn => t.pc = nnn.setWidth 16
      | .jpV0 nnn => t.pc = nnn.setWidth 16 + (s.reg 0).setWidth 16
      | .call nnn => t.pc = nnn.setWidth 16
      | .ret => ∀ j : Fin 16, s.sp.val = j.val + 1 → t.pc = s.stack[j.val]
      | .seImm x kk => t.pc = if s.reg x = kk then s.pc + 4 else s.pc + 2
      | .sneImm x kk => t.pc = if s.reg x ≠ kk then s.pc + 4 else s.pc + 2
      | .seReg x y => t.pc = if s.reg x = s.reg y then s.pc + 4 else s.pc + 2
      | .sneReg x y => t.pc = if s.reg x ≠ s.reg y then s.pc + 4 else s.pc + 2
      | .skp x => ∀ k : Key, (s.reg x).toNat = k.val → t.pc = if s.keyPressed k = true then s.pc + 4 else s.pc + 2
      | .sknp x => ∀ k : Key, (s.reg x).toNat = k.val → t.pc = if s.keyPressed k = false then s.pc + 4 else s.pc + 2
      | _ => t.pc = s.pc + 2)

/-- R20, R21, R23, R28, R30, R31, R51, R230, R233, R235: no instruction writes a V register but its destination, and
VF where it defines a flag; and which instructions write I, the stack, DT, ST, memory and the display, draw a random
byte or ask for a key; every other instruction leaves each of them. -/
def Obligations.EachStateHasItsWriters : Prop :=
  ∀ (i : Instr) (s t : State), exec i s = .next t →
    SameRegsBut (destinations i) s t ∧
    ((∀ nnn, i ≠ .ldI nnn) → (∀ x, i ≠ .addI x) → (∀ x, i ≠ .ldF x) → t.i = s.i) ∧
    ((∀ nnn, i ≠ .call nnn) → i ≠ .ret → SameStack s t) ∧
    ((∀ x, i ≠ .ldDT x) → t.dt = s.dt) ∧ ((∀ x, i ≠ .ldST x) → t.st = s.st) ∧
    ((∀ x, i ≠ .ldB x) → (∀ x, i ≠ .storeRegs x) → SameMemory s t) ∧
    (i ≠ .cls → (∀ x y n, i ≠ .drw x y n) → SameDisplay s t) ∧
    ((∀ x kk, i ≠ .rnd x kk) → t.randomBytes = s.randomBytes ∧ t.draws = s.draws) ∧
    ((∀ x, i ≠ .skp x) → (∀ x, i ≠ .sknp x) → t.keyAnswers = s.keyAnswers ∧ t.polls = s.polls) ∧
    t.turns = s.turns

/-- R32, R262 (whose turn it is stands in the model's list, log entry 1): in one step DT can rise only by executing
Fx15, and ST only by executing Fx18; and either falls only by one of these, by 1 in a tick, or by a reset of the host.
-/
def Obligations.TimersChangeOnlyByTickOrWrite : Prop :=
  ∀ s t : State, step s = .next t → (∀ rom, s.nextTurn ≠ .reset rom) →
    (t.dt = s.dt ∨ (s.nextTurn = .timer ∧ t.dt.toNat + 1 = s.dt.toNat) ∨
      ∃ x, s.nextTurn = .engine ∧ t.dt = s.reg x ∧
        decode (wordOfBytes (s.readByte (s.pc.setWidth 12)) (s.readByte ((s.pc + 1).setWidth 12))) = .ok (.ldDT x)) ∧
    (t.st = s.st ∨ (s.nextTurn = .timer ∧ t.st.toNat + 1 = s.st.toNat) ∨
      ∃ x, s.nextTurn = .engine ∧ t.st = s.reg x ∧
        decode (wordOfBytes (s.readByte (s.pc.setWidth 12)) (s.readByte ((s.pc + 1).setWidth 12))) = .ok (.ldST x))

/-- R237 (the spec's decision D31): the sound output is on exactly while ST > 0, and a step calls `set_active`, with
the new value, only where the output changes: in an engine's turn that runs Fx18, in a tick, or in a reset by the host
(the list of turns is log entry 1). -/
def Obligations.SoundCallsComeFromTimerSteps : Prop :=
  ∀ (s t : State) (b : Bool), step s = .next t → setActiveCall s t = some b →
    (b = true ↔ 0 < t.st.toNat) ∧ (b = true ↔ s.st = 0) ∧
    (s.nextTurn = .timer ∨ (∃ rom, s.nextTurn = .reset rom) ∨
      ∃ x, s.nextTurn = .engine ∧
        decode (wordOfBytes (s.readByte (s.pc.setWidth 12)) (s.readByte ((s.pc + 1).setWidth 12))) = .ok (.ldST x))

/-- R200, R243 (the turns, and that an engine's turn has no effect here, are the model's, log entries 1 and 2): while
the machine waits for a key, any turns of the engine and the timer leave all of the state but the timers, and each
tick takes 1 from a timer until it is 0: none is lost or duplicated. -/
def Obligations.WaitSurvivesTurns : Prop :=
  ∀ (s : State) (x : Reg) (ts : List Turn), s.run = .awaitingKey x → (∀ t ∈ ts, t = .engine ∨ t = .timer) →
    ∃ t, core.run ts.length { s with turns := ts } = .next t ∧
      t.dt.toNat = s.dt.toNat - ts.count .timer ∧ t.st.toNat = s.st.toNat - ts.count .timer ∧
      SameRegsBut [] s t ∧ t.pc = s.pc ∧ t.i = s.i ∧ SameStack s t ∧ SameMemory s t ∧ t.run = s.run ∧
      SameDisplay s t ∧ t.turns = [] ∧ t.randomBytes = s.randomBytes ∧ t.keyAnswers = s.keyAnswers ∧
      t.draws = s.draws ∧ t.polls = s.polls

/-- R226, R200 (the spec's decision D16; the schedule as turns of a list, and that an engine's turn in AwaitingKey is
taken without effect, are the model's, log entries 1 and 2): on every fair schedule of the engine and the timer alone,
a machine that waits for a key comes to a state in which both timers are 0, and still waits. -/
def Obligations.FairWaitRunsTimersOut : Prop :=
  ∀ (σ : Nat → Turn) (s : State) (x : Reg), FairSchedule σ → (∀ n, σ n = .engine ∨ σ n = .timer) →
    s.run = .awaitingKey x →
    ∃ n t, scheduleRun σ s n = .next t ∧ t.dt = 0 ∧ t.st = 0 ∧ t.run = .awaitingKey x ∧ t.pc = s.pc

/-- R35: the canonical form determines the memory: two memories in canonical form that read the same at every address
are the same data (the canonical form is the model's, log entry 16). -/
def Obligations.CanonicalMemoryIsUnique : Prop :=
  ∀ m m' : Memory, m.wf → m'.wf → (∀ a : Addr, m.read a.toNat = m'.read a.toNat) → m = m'

/-- R36, R41, R74, R102, R212: from every state that meets the invariant, a step of any agent gives a state that meets
it: memory keeps its canonical form, the font is never mutated, PC stays at most 0x10FE, return addresses at most
0x1000, and a fault record's pc is PC. -/
def Obligations.StepKeepsInvariant : Prop :=
  ∀ s t : State, s.Inv → step s = .next t → t.Inv

/-- R250: the reset state meets the invariant. -/
def Obligations.ResetMeetsInvariant : Prop := State.reset.Inv
end

