-- ==== Sys2Proof/Laws/State.lean ====
section
/-! SUPPORT. One lemma per field per update of the state, each true by rfl, so that no proof unfolds a record update;
and what the observers `reg`, `readByte` and `pixel` read after each update. -/

namespace Sys2Proof.Machine

section
variable (s : State)

/-! ### setReg -/

@[simp] theorem State.setReg_v (r : Reg) (b : Byte) : (s.setReg r b).v = s.v.set r.val b := rfl
@[simp] theorem State.setReg_i (r : Reg) (b : Byte) : (s.setReg r b).i = s.i := rfl
@[simp] theorem State.setReg_pc (r : Reg) (b : Byte) : (s.setReg r b).pc = s.pc := rfl
@[simp] theorem State.setReg_sp (r : Reg) (b : Byte) : (s.setReg r b).sp = s.sp := rfl
@[simp] theorem State.setReg_stack (r : Reg) (b : Byte) : (s.setReg r b).stack = s.stack := rfl
@[simp] theorem State.setReg_dt (r : Reg) (b : Byte) : (s.setReg r b).dt = s.dt := rfl
@[simp] theorem State.setReg_st (r : Reg) (b : Byte) : (s.setReg r b).st = s.st := rfl
@[simp] theorem State.setReg_mem (r : Reg) (b : Byte) : (s.setReg r b).mem = s.mem := rfl
@[simp] theorem State.setReg_run (r : Reg) (b : Byte) : (s.setReg r b).run = s.run := rfl
@[simp] theorem State.setReg_fb (r : Reg) (b : Byte) : (s.setReg r b).fb = s.fb := rfl
@[simp] theorem State.setReg_turns (r : Reg) (b : Byte) : (s.setReg r b).turns = s.turns := rfl
@[simp] theorem State.setReg_randomBytes (r : Reg) (b : Byte) : (s.setReg r b).randomBytes = s.randomBytes := rfl
@[simp] theorem State.setReg_keyAnswers (r : Reg) (b : Byte) : (s.setReg r b).keyAnswers = s.keyAnswers := rfl
@[simp] theorem State.setReg_draws (r : Reg) (b : Byte) : (s.setReg r b).draws = s.draws := rfl
@[simp] theorem State.setReg_polls (r : Reg) (b : Byte) : (s.setReg r b).polls = s.polls := rfl
@[simp] theorem State.readByte_setReg (r : Reg) (b : Byte) (a : Addr) : (s.setReg r b).readByte a = s.readByte a := rfl
@[simp] theorem State.pixel_setReg (r : Reg) (b : Byte) (px : Column) (py : Row) : (s.setReg r b).pixel px py = s.pixel px py := rfl

/-! ### setI -/

@[simp] theorem State.setI_v (w : Word) : (s.setI w).v = s.v := rfl
@[simp] theorem State.setI_i (w : Word) : (s.setI w).i = w := rfl
@[simp] theorem State.setI_pc (w : Word) : (s.setI w).pc = s.pc := rfl
@[simp] theorem State.setI_sp (w : Word) : (s.setI w).sp = s.sp := rfl
@[simp] theorem State.setI_stack (w : Word) : (s.setI w).stack = s.stack := rfl
@[simp] theorem State.setI_dt (w : Word) : (s.setI w).dt = s.dt := rfl
@[simp] theorem State.setI_st (w : Word) : (s.setI w).st = s.st := rfl
@[simp] theorem State.setI_mem (w : Word) : (s.setI w).mem = s.mem := rfl
@[simp] theorem State.setI_run (w : Word) : (s.setI w).run = s.run := rfl
@[simp] theorem State.setI_fb (w : Word) : (s.setI w).fb = s.fb := rfl
@[simp] theorem State.setI_turns (w : Word) : (s.setI w).turns = s.turns := rfl
@[simp] theorem State.setI_randomBytes (w : Word) : (s.setI w).randomBytes = s.randomBytes := rfl
@[simp] theorem State.setI_keyAnswers (w : Word) : (s.setI w).keyAnswers = s.keyAnswers := rfl
@[simp] theorem State.setI_draws (w : Word) : (s.setI w).draws = s.draws := rfl
@[simp] theorem State.setI_polls (w : Word) : (s.setI w).polls = s.polls := rfl
@[simp] theorem State.reg_setI (w : Word) (q : Reg) : (s.setI w).reg q = s.reg q := rfl
@[simp] theorem State.readByte_setI (w : Word) (a : Addr) : (s.setI w).readByte a = s.readByte a := rfl
@[simp] theorem State.pixel_setI (w : Word) (px : Column) (py : Row) : (s.setI w).pixel px py = s.pixel px py := rfl

/-! ### setPc -/

@[simp] theorem State.setPc_v (w : Word) : (s.setPc w).v = s.v := rfl
@[simp] theorem State.setPc_i (w : Word) : (s.setPc w).i = s.i := rfl
@[simp] theorem State.setPc_pc (w : Word) : (s.setPc w).pc = w := rfl
@[simp] theorem State.setPc_sp (w : Word) : (s.setPc w).sp = s.sp := rfl
@[simp] theorem State.setPc_stack (w : Word) : (s.setPc w).stack = s.stack := rfl
@[simp] theorem State.setPc_dt (w : Word) : (s.setPc w).dt = s.dt := rfl
@[simp] theorem State.setPc_st (w : Word) : (s.setPc w).st = s.st := rfl
@[simp] theorem State.setPc_mem (w : Word) : (s.setPc w).mem = s.mem := rfl
@[simp] theorem State.setPc_run (w : Word) : (s.setPc w).run = s.run := rfl
@[simp] theorem State.setPc_fb (w : Word) : (s.setPc w).fb = s.fb := rfl
@[simp] theorem State.setPc_turns (w : Word) : (s.setPc w).turns = s.turns := rfl
@[simp] theorem State.setPc_randomBytes (w : Word) : (s.setPc w).randomBytes = s.randomBytes := rfl
@[simp] theorem State.setPc_keyAnswers (w : Word) : (s.setPc w).keyAnswers = s.keyAnswers := rfl
@[simp] theorem State.setPc_draws (w : Word) : (s.setPc w).draws = s.draws := rfl
@[simp] theorem State.setPc_polls (w : Word) : (s.setPc w).polls = s.polls := rfl
@[simp] theorem State.reg_setPc (w : Word) (q : Reg) : (s.setPc w).reg q = s.reg q := rfl
@[simp] theorem State.readByte_setPc (w : Word) (a : Addr) : (s.setPc w).readByte a = s.readByte a := rfl
@[simp] theorem State.pixel_setPc (w : Word) (px : Column) (py : Row) : (s.setPc w).pixel px py = s.pixel px py := rfl

/-! ### setDT -/

@[simp] theorem State.setDT_v (b : Byte) : (s.setDT b).v = s.v := rfl
@[simp] theorem State.setDT_i (b : Byte) : (s.setDT b).i = s.i := rfl
@[simp] theorem State.setDT_pc (b : Byte) : (s.setDT b).pc = s.pc := rfl
@[simp] theorem State.setDT_sp (b : Byte) : (s.setDT b).sp = s.sp := rfl
@[simp] theorem State.setDT_stack (b : Byte) : (s.setDT b).stack = s.stack := rfl
@[simp] theorem State.setDT_dt (b : Byte) : (s.setDT b).dt = b := rfl
@[simp] theorem State.setDT_st (b : Byte) : (s.setDT b).st = s.st := rfl
@[simp] theorem State.setDT_mem (b : Byte) : (s.setDT b).mem = s.mem := rfl
@[simp] theorem State.setDT_run (b : Byte) : (s.setDT b).run = s.run := rfl
@[simp] theorem State.setDT_fb (b : Byte) : (s.setDT b).fb = s.fb := rfl
@[simp] theorem State.setDT_turns (b : Byte) : (s.setDT b).turns = s.turns := rfl
@[simp] theorem State.setDT_randomBytes (b : Byte) : (s.setDT b).randomBytes = s.randomBytes := rfl
@[simp] theorem State.setDT_keyAnswers (b : Byte) : (s.setDT b).keyAnswers = s.keyAnswers := rfl
@[simp] theorem State.setDT_draws (b : Byte) : (s.setDT b).draws = s.draws := rfl
@[simp] theorem State.setDT_polls (b : Byte) : (s.setDT b).polls = s.polls := rfl
@[simp] theorem State.reg_setDT (b : Byte) (q : Reg) : (s.setDT b).reg q = s.reg q := rfl
@[simp] theorem State.readByte_setDT (b : Byte) (a : Addr) : (s.setDT b).readByte a = s.readByte a := rfl
@[simp] theorem State.pixel_setDT (b : Byte) (px : Column) (py : Row) : (s.setDT b).pixel px py = s.pixel px py := rfl

/-! ### setST -/

@[simp] theorem State.setST_v (b : Byte) : (s.setST b).v = s.v := rfl
@[simp] theorem State.setST_i (b : Byte) : (s.setST b).i = s.i := rfl
@[simp] theorem State.setST_pc (b : Byte) : (s.setST b).pc = s.pc := rfl
@[simp] theorem State.setST_sp (b : Byte) : (s.setST b).sp = s.sp := rfl
@[simp] theorem State.setST_stack (b : Byte) : (s.setST b).stack = s.stack := rfl
@[simp] theorem State.setST_dt (b : Byte) : (s.setST b).dt = s.dt := rfl
@[simp] theorem State.setST_st (b : Byte) : (s.setST b).st = b := rfl
@[simp] theorem State.setST_mem (b : Byte) : (s.setST b).mem = s.mem := rfl
@[simp] theorem State.setST_run (b : Byte) : (s.setST b).run = s.run := rfl
@[simp] theorem State.setST_fb (b : Byte) : (s.setST b).fb = s.fb := rfl
@[simp] theorem State.setST_turns (b : Byte) : (s.setST b).turns = s.turns := rfl
@[simp] theorem State.setST_randomBytes (b : Byte) : (s.setST b).randomBytes = s.randomBytes := rfl
@[simp] theorem State.setST_keyAnswers (b : Byte) : (s.setST b).keyAnswers = s.keyAnswers := rfl
@[simp] theorem State.setST_draws (b : Byte) : (s.setST b).draws = s.draws := rfl
@[simp] theorem State.setST_polls (b : Byte) : (s.setST b).polls = s.polls := rfl
@[simp] theorem State.reg_setST (b : Byte) (q : Reg) : (s.setST b).reg q = s.reg q := rfl
@[simp] theorem State.readByte_setST (b : Byte) (a : Addr) : (s.setST b).readByte a = s.readByte a := rfl
@[simp] theorem State.pixel_setST (b : Byte) (px : Column) (py : Row) : (s.setST b).pixel px py = s.pixel px py := rfl

/-! ### setRun -/

@[simp] theorem State.setRun_v (r : Run) : (s.setRun r).v = s.v := rfl
@[simp] theorem State.setRun_i (r : Run) : (s.setRun r).i = s.i := rfl
@[simp] theorem State.setRun_pc (r : Run) : (s.setRun r).pc = s.pc := rfl
@[simp] theorem State.setRun_sp (r : Run) : (s.setRun r).sp = s.sp := rfl
@[simp] theorem State.setRun_stack (r : Run) : (s.setRun r).stack = s.stack := rfl
@[simp] theorem State.setRun_dt (r : Run) : (s.setRun r).dt = s.dt := rfl
@[simp] theorem State.setRun_st (r : Run) : (s.setRun r).st = s.st := rfl
@[simp] theorem State.setRun_mem (r : Run) : (s.setRun r).mem = s.mem := rfl
@[simp] theorem State.setRun_run (r : Run) : (s.setRun r).run = r := rfl
@[simp] theorem State.setRun_fb (r : Run) : (s.setRun r).fb = s.fb := rfl
@[simp] theorem State.setRun_turns (r : Run) : (s.setRun r).turns = s.turns := rfl
@[simp] theorem State.setRun_randomBytes (r : Run) : (s.setRun r).randomBytes = s.randomBytes := rfl
@[simp] theorem State.setRun_keyAnswers (r : Run) : (s.setRun r).keyAnswers = s.keyAnswers := rfl
@[simp] theorem State.setRun_draws (r : Run) : (s.setRun r).draws = s.draws := rfl
@[simp] theorem State.setRun_polls (r : Run) : (s.setRun r).polls = s.polls := rfl
@[simp] theorem State.reg_setRun (r : Run) (q : Reg) : (s.setRun r).reg q = s.reg q := rfl
@[simp] theorem State.readByte_setRun (r : Run) (a : Addr) : (s.setRun r).readByte a = s.readByte a := rfl
@[simp] theorem State.pixel_setRun (r : Run) (px : Column) (py : Row) : (s.setRun r).pixel px py = s.pixel px py := rfl

/-! ### setFb -/

@[simp] theorem State.setFb_v (f : FrameBuffer) : (s.setFb f).v = s.v := rfl
@[simp] theorem State.setFb_i (f : FrameBuffer) : (s.setFb f).i = s.i := rfl
@[simp] theorem State.setFb_pc (f : FrameBuffer) : (s.setFb f).pc = s.pc := rfl
@[simp] theorem State.setFb_sp (f : FrameBuffer) : (s.setFb f).sp = s.sp := rfl
@[simp] theorem State.setFb_stack (f : FrameBuffer) : (s.setFb f).stack = s.stack := rfl
@[simp] theorem State.setFb_dt (f : FrameBuffer) : (s.setFb f).dt = s.dt := rfl
@[simp] theorem State.setFb_st (f : FrameBuffer) : (s.setFb f).st = s.st := rfl
@[simp] theorem State.setFb_mem (f : FrameBuffer) : (s.setFb f).mem = s.mem := rfl
@[simp] theorem State.setFb_run (f : FrameBuffer) : (s.setFb f).run = s.run := rfl
@[simp] theorem State.setFb_fb (f : FrameBuffer) : (s.setFb f).fb = f := rfl
@[simp] theorem State.setFb_turns (f : FrameBuffer) : (s.setFb f).turns = s.turns := rfl
@[simp] theorem State.setFb_randomBytes (f : FrameBuffer) : (s.setFb f).randomBytes = s.randomBytes := rfl
@[simp] theorem State.setFb_keyAnswers (f : FrameBuffer) : (s.setFb f).keyAnswers = s.keyAnswers := rfl
@[simp] theorem State.setFb_draws (f : FrameBuffer) : (s.setFb f).draws = s.draws := rfl
@[simp] theorem State.setFb_polls (f : FrameBuffer) : (s.setFb f).polls = s.polls := rfl
@[simp] theorem State.reg_setFb (f : FrameBuffer) (q : Reg) : (s.setFb f).reg q = s.reg q := rfl
@[simp] theorem State.readByte_setFb (f : FrameBuffer) (a : Addr) : (s.setFb f).readByte a = s.readByte a := rfl

/-! ### afterDraw -/

@[simp] theorem State.afterDraw_v : s.afterDraw.v = s.v := rfl
@[simp] theorem State.afterDraw_i : s.afterDraw.i = s.i := rfl
@[simp] theorem State.afterDraw_pc : s.afterDraw.pc = s.pc := rfl
@[simp] theorem State.afterDraw_sp : s.afterDraw.sp = s.sp := rfl
@[simp] theorem State.afterDraw_stack : s.afterDraw.stack = s.stack := rfl
@[simp] theorem State.afterDraw_dt : s.afterDraw.dt = s.dt := rfl
@[simp] theorem State.afterDraw_st : s.afterDraw.st = s.st := rfl
@[simp] theorem State.afterDraw_mem : s.afterDraw.mem = s.mem := rfl
@[simp] theorem State.afterDraw_run : s.afterDraw.run = s.run := rfl
@[simp] theorem State.afterDraw_fb : s.afterDraw.fb = s.fb := rfl
@[simp] theorem State.afterDraw_turns : s.afterDraw.turns = s.turns := rfl
@[simp] theorem State.afterDraw_randomBytes : s.afterDraw.randomBytes = s.randomBytes.tail := rfl
@[simp] theorem State.afterDraw_keyAnswers : s.afterDraw.keyAnswers = s.keyAnswers := rfl
@[simp] theorem State.afterDraw_draws : s.afterDraw.draws = s.draws + 1 := rfl
@[simp] theorem State.afterDraw_polls : s.afterDraw.polls = s.polls := rfl
@[simp] theorem State.reg_afterDraw (q : Reg) : s.afterDraw.reg q = s.reg q := rfl
@[simp] theorem State.readByte_afterDraw (a : Addr) : s.afterDraw.readByte a = s.readByte a := rfl
@[simp] theorem State.pixel_afterDraw (px : Column) (py : Row) : s.afterDraw.pixel px py = s.pixel px py := rfl

/-! ### afterPoll -/

@[simp] theorem State.afterPoll_v : s.afterPoll.v = s.v := rfl
@[simp] theorem State.afterPoll_i : s.afterPoll.i = s.i := rfl
@[simp] theorem State.afterPoll_pc : s.afterPoll.pc = s.pc := rfl
@[simp] theorem State.afterPoll_sp : s.afterPoll.sp = s.sp := rfl
@[simp] theorem State.afterPoll_stack : s.afterPoll.stack = s.stack := rfl
@[simp] theorem State.afterPoll_dt : s.afterPoll.dt = s.dt := rfl
@[simp] theorem State.afterPoll_st : s.afterPoll.st = s.st := rfl
@[simp] theorem State.afterPoll_mem : s.afterPoll.mem = s.mem := rfl
@[simp] theorem State.afterPoll_run : s.afterPoll.run = s.run := rfl
@[simp] theorem State.afterPoll_fb : s.afterPoll.fb = s.fb := rfl
@[simp] theorem State.afterPoll_turns : s.afterPoll.turns = s.turns := rfl
@[simp] theorem State.afterPoll_randomBytes : s.afterPoll.randomBytes = s.randomBytes := rfl
@[simp] theorem State.afterPoll_keyAnswers : s.afterPoll.keyAnswers = s.keyAnswers.tail := rfl
@[simp] theorem State.afterPoll_draws : s.afterPoll.draws = s.draws := rfl
@[simp] theorem State.afterPoll_polls : s.afterPoll.polls = s.polls + 1 := rfl
@[simp] theorem State.reg_afterPoll (q : Reg) : s.afterPoll.reg q = s.reg q := rfl
@[simp] theorem State.readByte_afterPoll (a : Addr) : s.afterPoll.readByte a = s.readByte a := rfl
@[simp] theorem State.pixel_afterPoll (px : Column) (py : Row) : s.afterPoll.pixel px py = s.pixel px py := rfl

/-! ### popTurn -/

@[simp] theorem State.popTurn_v : s.popTurn.v = s.v := rfl
@[simp] theorem State.popTurn_i : s.popTurn.i = s.i := rfl
@[simp] theorem State.popTurn_pc : s.popTurn.pc = s.pc := rfl
@[simp] theorem State.popTurn_sp : s.popTurn.sp = s.sp := rfl
@[simp] theorem State.popTurn_stack : s.popTurn.stack = s.stack := rfl
@[simp] theorem State.popTurn_dt : s.popTurn.dt = s.dt := rfl
@[simp] theorem State.popTurn_st : s.popTurn.st = s.st := rfl
@[simp] theorem State.popTurn_mem : s.popTurn.mem = s.mem := rfl
@[simp] theorem State.popTurn_run : s.popTurn.run = s.run := rfl
@[simp] theorem State.popTurn_fb : s.popTurn.fb = s.fb := rfl
@[simp] theorem State.popTurn_turns : s.popTurn.turns = s.turns.tail := rfl
@[simp] theorem State.popTurn_randomBytes : s.popTurn.randomBytes = s.randomBytes := rfl
@[simp] theorem State.popTurn_keyAnswers : s.popTurn.keyAnswers = s.keyAnswers := rfl
@[simp] theorem State.popTurn_draws : s.popTurn.draws = s.draws := rfl
@[simp] theorem State.popTurn_polls : s.popTurn.polls = s.polls := rfl
@[simp] theorem State.reg_popTurn (q : Reg) : s.popTurn.reg q = s.reg q := rfl
@[simp] theorem State.readByte_popTurn (a : Addr) : s.popTurn.readByte a = s.readByte a := rfl
@[simp] theorem State.pixel_popTurn (px : Column) (py : Row) : s.popTurn.pixel px py = s.pixel px py := rfl

/-! ### The register file -/

/-- What a register holds after a register write: no register is hardwired (R20). -/
@[simp] theorem State.reg_setReg (r q : Reg) (b : Byte) :
    (s.setReg r b).reg q = if q = r then b else s.reg q := by
  simp [State.reg, State.setReg, Vector.getElem_set, Fin.ext_iff, eq_comm]

@[simp] theorem State.pixel_setFb (f : FrameBuffer) (px : Column) (py : Row) :
    (s.setFb f).pixel px py = f.pixel px py := rfl

/-! ### The derived updates, in terms of the ones above -/

@[simp] theorem State.advance_eq : s.advance = s.setPc (s.pc + 2) := rfl
@[simp] theorem State.skipIf_eq (c : Bool) : s.skipIf c = s.setPc (if c then s.pc + 4 else s.pc + 2) := rfl
@[simp] theorem State.setFlag_eq (c : Bool) : s.setFlag c = s.setReg VF (flagByte c) := rfl
@[simp] theorem State.raiseFault_eq (k : FaultKind) (w : Option Word) (info : FaultInfo) :
    s.raiseFault k w info = s.setRun (.halted { kind := k, pc := s.pc, word := w, info := info }) := rfl
@[simp] theorem State.raiseIn_eq (i : Instr) (k : FaultKind) (info : FaultInfo) :
    s.raiseIn i k info = s.setRun (.halted { kind := k, pc := s.pc, word := some (encode i), info := info }) := rfl
@[simp] theorem State.unsupported_eq (w : Word) :
    s.unsupported w = s.setRun (.halted { kind := .unsupportedOpcode, pc := s.pc, word := some w, info := .none }) := rfl

end

end Sys2Proof.Machine
end

