-- ==== Sys2Proof/Laws/Memory.lean ====
section
/-! SUPPORT. The laws of memory: read after write, the canonical form, and that a memory in canonical form is
determined by what it reads as. -/

namespace Sys2Proof.Machine

theorem Memory.read_consByte (m : Memory) (a : Nat) (b : Byte) (h : m.read a = resetByte a) (q : Nat) :
    (Memory.consByte a b m).read q = if q = a then b else m.read q := by
  unfold Memory.consByte
  by_cases hb : b = resetByte a
  · by_cases hq : q = a
    · subst hq; simp [hb, h]
    · simp [hb, hq]
  · by_cases hq : q = a
    · subst hq; simp [hb, Memory.read]
    · simp [hb, hq, Memory.read, Ne.symm hq]

/-- An address below every listed one reads as after reset. -/
theorem Memory.read_of_lt (m : Memory) (a : Nat) (h : ∀ c ∈ m, a < c.1) : m.read a = resetByte a := by
  induction m with
  | nil => rfl
  | cons c m ih =>
    have hc := h c (by simp)
    rw [Memory.read, if_neg (by omega), ih fun d hd => h d (by simp [hd])]

/-- Read after write: the byte written at its address, every other address as before. -/
theorem Memory.read_write (m : Memory) (hm : m.Pairwise (fun c d => c.1 < d.1)) (a : Nat) (b : Byte) (q : Nat) :
    (m.write a b).read q = if q = a then b else m.read q := by
  induction m with
  | nil => exact Memory.read_consByte [] a b rfl q
  | cons c m ih =>
    obtain ⟨hc, hm'⟩ := List.pairwise_cons.mp hm
    rw [Memory.write]
    by_cases h1 : c.1 < a
    · rw [if_pos h1, Memory.read, Memory.read, ih hm']
      by_cases hq : q = a
      · subst hq; simp [Nat.ne_of_lt h1]
      · simp [hq]
    · rw [if_neg h1]
      by_cases h2 : c.1 = a
      · subst h2
        rw [if_pos rfl, Memory.read_consByte _ _ _ (Memory.read_of_lt m _ hc), Memory.read]
        by_cases hq : q = c.1
        · simp [hq]
        · simp [hq, Ne.symm hq]
      · rw [if_neg h2, Memory.read_consByte]
        refine Memory.read_of_lt _ _ fun d hd => ?_
        rcases List.mem_cons.mp hd with rfl | hd
        · omega
        · have := hc d hd; omega

theorem Memory.consByte_wf (m : Memory) (a : Nat) (b : Byte) (hm : m.wf) (ha : a < 0x1000)
    (h : ∀ c ∈ m, a < c.1) : (Memory.consByte a b m).wf := by
  unfold Memory.consByte
  by_cases hb : b = resetByte a
  · simpa [hb] using hm
  · rw [if_neg hb]
    refine ⟨List.pairwise_cons.mpr ⟨h, hm.1⟩, fun c hc => ?_⟩
    rcases List.mem_cons.mp hc with rfl | hc
    · exact ⟨ha, hb⟩
    · exact hm.2 c hc

theorem Memory.mem_consByte (m : Memory) (a : Nat) (b : Byte) (c : Host.Cell)
    (hc : c ∈ Memory.consByte a b m) : c = (a, b) ∨ c ∈ m := by
  unfold Memory.consByte at hc
  split at hc
  · exact .inr hc
  · simpa using hc

theorem Memory.mem_write (m : Memory) (a : Nat) (b : Byte) (c : Host.Cell)
    (hc : c ∈ m.write a b) : c.1 = a ∨ c ∈ m := by
  induction m with
  | nil => rcases Memory.mem_consByte _ _ _ _ hc with rfl | h <;> simp_all
  | cons d m ih =>
    rw [Memory.write] at hc
    split at hc
    · rcases List.mem_cons.mp hc with rfl | hc
      · simp
      · rcases ih hc with h | h <;> simp [h]
    · split at hc <;> rcases Memory.mem_consByte _ _ _ _ hc with rfl | h <;> simp_all

/-- A write keeps the canonical form. -/
theorem Memory.write_wf (m : Memory) (hm : m.wf) (a : Nat) (ha : a < 0x1000) (b : Byte) : (m.write a b).wf := by
  induction m with
  | nil => exact Memory.consByte_wf [] a b hm ha (by simp)
  | cons c m ih =>
    obtain ⟨hc, hp⟩ := List.pairwise_cons.mp hm.1
    have hm' : Memory.wf m := ⟨hp, fun d hd => hm.2 d (List.mem_cons_of_mem _ hd)⟩
    rw [Memory.write]
    by_cases h1 : c.1 < a
    · rw [if_pos h1]
      refine ⟨List.pairwise_cons.mpr ⟨fun d hd => ?_, (ih hm').1⟩, fun d hd => ?_⟩
      · rcases Memory.mem_write _ _ _ _ hd with h | h
        · omega
        · exact hc d h
      · rcases List.mem_cons.mp hd with rfl | hd
        · exact hm.2 _ (List.mem_cons_self ..)
        · exact (ih hm').2 d hd
    · rw [if_neg h1]
      by_cases h2 : c.1 = a
      · rw [if_pos h2]
        exact Memory.consByte_wf m a b hm' ha fun d hd => h2 ▸ hc d hd
      · rw [if_neg h2]
        refine Memory.consByte_wf _ a b hm ha fun d hd => ?_
        rcases List.mem_cons.mp hd with rfl | hd
        · omega
        · have := hc d hd; omega

theorem Memory.writeAll_wf (ws : List (Addr × Byte)) (m : Memory) (hm : m.wf) : (m.writeAll ws).wf := by
  induction ws generalizing m with
  | nil => exact hm
  | cons w ws ih => exact ih _ (Memory.write_wf m hm _ w.1.isLt _)

/-- An address that no write of a list names reads as before. -/
theorem Memory.read_writeAll_other (ws : List (Addr × Byte)) (m : Memory) (hm : m.wf) (q : Nat)
    (h : ∀ w ∈ ws, w.1.toNat ≠ q) : (m.writeAll ws).read q = m.read q := by
  induction ws generalizing m with
  | nil => rfl
  | cons w ws ih =>
    have hw := h w (by simp)
    have := ih (m.write w.1.toNat w.2) (Memory.write_wf m hm _ w.1.isLt _) fun v hv => h v (by simp [hv])
    rw [Memory.writeAll, List.foldl_cons]
    rw [Memory.writeAll] at this
    rw [this, Memory.read_write m hm.1, if_neg (Ne.symm hw)]

/-- Writes at distinct addresses: each address reads as the byte written to it. -/
theorem Memory.read_writeAll_mem (ws : List (Addr × Byte)) (m : Memory) (hm : m.wf)
    (hd : ws.Pairwise fun w w' => w.1 ≠ w'.1) (w : Addr × Byte) (hw : w ∈ ws) :
    (m.writeAll ws).read w.1.toNat = w.2 := by
  induction ws generalizing m with
  | nil => simp at hw
  | cons u ws ih =>
    obtain ⟨hu, hd'⟩ := List.pairwise_cons.mp hd
    have hm' := Memory.write_wf m hm u.1.toNat u.1.isLt u.2
    rcases List.mem_cons.mp hw with rfl | hw
    · have := Memory.read_writeAll_other ws (m.write w.1.toNat w.2) hm' w.1.toNat
        fun v hv h => hu v hv (BitVec.eq_of_toNat_eq h.symm)
      rw [Memory.writeAll, List.foldl_cons]
      rw [Memory.writeAll] at this
      rw [this, Memory.read_write m hm.1, if_pos rfl]
    · exact ih _ hm' hd' hw

/-- The cells a canonical memory lists are the addresses that do not read as after reset. -/
theorem Memory.read_of_mem (m : Memory) (hm : m.Pairwise (fun c d => c.1 < d.1)) (c : Host.Cell) (hc : c ∈ m) :
    m.read c.1 = c.2 := by
  induction m with
  | nil => simp at hc
  | cons d m ih =>
    obtain ⟨hd, hp⟩ := List.pairwise_cons.mp hm
    rw [Memory.read]
    rcases List.mem_cons.mp hc with rfl | hc
    · simp
    · rw [if_neg (by have := hd c hc; omega), ih hp hc]

/-- The reset memory is in canonical form. -/
theorem Memory.reset_wf : State.reset.mem.wf := by simp [State.reset, Memory.wf]

end Sys2Proof.Machine
end

