-- ==== Sys2Proof/Laws/Ops.lean ====
section
/-! SUPPORT. One lemma for each shared operation: everything it can do. -/

namespace Sys2Proof.Machine

/-! ### The stack (R27) -/

/-- A push answers a state exactly when SP < 16, and then writes the slot at SP and adds 1 to SP. -/
theorem State.push_cases (s : State) (w : Word) :
    (∃ (h : s.sp.val < 16) (t : State), s.push w = some t ∧
      t = { s with stack := s.stack.set s.sp.val w, sp := ⟨s.sp.val + 1, by omega⟩ }) ∨
    (s.sp.val = 16 ∧ s.push w = none) := by
  unfold State.push
  by_cases h : s.sp.val < 16
  · exact .inl ⟨h, _, dif_pos h, rfl⟩
  · exact .inr ⟨by omega, dif_neg h⟩

/-- A pop answers exactly when SP > 0, with the slot below SP, and takes 1 from SP. -/
theorem State.pop_cases (s : State) :
    (∃ (h : 0 < s.sp.val), s.pop =
      some (s.stack[s.sp.val - 1], { s with sp := ⟨s.sp.val - 1, by omega⟩ })) ∨
    (s.sp.val = 0 ∧ s.pop = none) := by
  unfold State.pop
  by_cases h : 0 < s.sp.val
  · exact .inl ⟨h, dif_pos h⟩
  · exact .inr ⟨by omega, dif_neg h⟩

/-! ### Checked writes (R56) -/

/-- The writes are all performed, and no target is in the font; or none is, and the answer is a target in the font. -/
theorem State.writeChecked_cases (s : State) (ws : List (Addr × Byte)) :
    ((∀ w ∈ ws, inFont w.1 = false) ∧ s.writeChecked ws = .ok { s with mem := s.mem.writeAll ws }) ∨
    (∃ w ∈ ws, inFont w.1 = true ∧ s.writeChecked ws = .error w.1) := by
  unfold State.writeChecked
  cases h : ws.find? fun w => inFont w.1 with
  | none =>
    refine .inl ⟨fun w hw => ?_, rfl⟩
    simpa using List.find?_eq_none.mp h w hw
  | some w =>
    exact .inr ⟨w, List.mem_of_find?_eq_some h, by simpa using List.find?_some h, rfl⟩

theorem inFont_iff (a : Addr) : inFont a = true ↔ a.toNat ≤ 0x04F := by simp [inFont]

theorem inFont_eq_false_iff (a : Addr) : inFont a = false ↔ 0x04F < a.toNat := by simp [inFont]

/-! ### Addresses -/

theorem ea_toNat (i : Word) (k : Nat) : (ea i k).toNat = (i.toNat + k) % 0x1000 := by
  simp [ea]

/-- Offsets less than 4096 apart give different addresses. -/
theorem ea_inj (i : Word) (j k : Nat) (hj : j < 0x1000) (hk : k < 0x1000) (h : ea i j = ea i k) : j = k := by
  have := congrArg BitVec.toNat h
  rw [ea_toNat, ea_toNat] at this
  omega

/-! ### Lists of registers -/

theorem mem_regsUpTo (x r : Reg) : r ∈ regsUpTo x ↔ r ≤ x := by
  simp only [regsUpTo, List.mem_map, List.mem_range]
  constructor
  · rintro ⟨k, hk, rfl⟩
    have := x.isLt
    simp only [Fin.le_def, Fin.ofNat]
    omega
  · intro h
    have := r.isLt
    exact ⟨r.val, by simp only [Fin.le_def] at h; omega, Fin.ext (by simp [Fin.ofNat])⟩

/-- The registers of the list come in rising order. -/
theorem regsUpTo_pairwise (x : Reg) : (regsUpTo x).Pairwise (· < ·) := by
  rw [regsUpTo, List.pairwise_map]
  refine List.Pairwise.imp_of_mem ?_ List.pairwise_lt_range
  intro a b ha hb h
  have hx := x.isLt
  simp only [List.mem_range] at ha hb
  simp only [Fin.lt_def, Fin.ofNat]
  omega

/-- Register writes over a list: each register of the list holds its value, every other is as before. -/
theorem reg_foldl_setReg (f : Reg → Byte) (rs : List Reg) (t : State) (q : Reg) :
    (rs.foldl (fun t r => t.setReg r (f r)) t).reg q = if q ∈ rs then f q else t.reg q := by
  induction rs generalizing t with
  | nil => simp
  | cons r rs ih =>
    rw [List.foldl_cons, ih, State.reg_setReg]
    by_cases h : q ∈ rs <;> by_cases h' : q = r <;> simp_all

/-- What Fx65 leaves in a register (R175). -/
theorem State.reg_loadUpTo (s : State) (x q : Reg) :
    (s.loadUpTo x).reg q = if q ≤ x then s.readByte (ea s.i q.val) else s.reg q := by
  rw [State.loadUpTo, reg_foldl_setReg (fun r => s.readByte (ea s.i r.val))]
  simp [mem_regsUpTo]

/-- Register writes over a list change nothing but the register file. -/
theorem foldl_setReg_eq (f : Reg → Byte) (rs : List Reg) (t : State) :
    ∃ v, rs.foldl (fun t r => t.setReg r (f r)) t = { t with v := v } := by
  induction rs generalizing t with
  | nil => exact ⟨t.v, rfl⟩
  | cons r rs ih =>
    obtain ⟨v, hv⟩ := ih (t.setReg r (f r))
    exact ⟨v, by rw [List.foldl_cons, hv]; rfl⟩

/-- Fx65's loads change nothing but the register file. -/
theorem State.loadUpTo_eq (s : State) (x : Reg) : ∃ v, s.loadUpTo x = { s with v := v } :=
  foldl_setReg_eq _ _ s

/-! ### The stores of Fx33 and Fx55 -/

/-- The targets of Fx55 are distinct. -/
theorem State.storeWrites_distinct (s : State) (x : Reg) :
    (s.storeWrites x).Pairwise fun w w' => w.1 ≠ w'.1 := by
  rw [State.storeWrites, List.pairwise_map]
  refine (regsUpTo_pairwise x).imp fun {a b} h e => ?_
  have := ea_inj s.i a.val b.val (by omega) (by omega) e
  rw [Fin.lt_def] at h
  omega

/-- The targets of Fx33 are distinct. -/
theorem bcdWrites_distinct (i : Word) (b : Byte) : (bcdWrites i b).Pairwise fun w w' => w.1 ≠ w'.1 := by
  have h (j k : Nat) (hj : j < 3) (hk : k < 3) (h : j ≠ k) : ea i j ≠ ea i k :=
    fun e => h (ea_inj i j k (by omega) (by omega) e)
  simp [bcdWrites, h]

theorem mem_storeWrites (s : State) (x : Reg) (w : Addr × Byte) :
    w ∈ s.storeWrites x ↔ ∃ r : Reg, r ≤ x ∧ w = (ea s.i r.val, s.reg r) := by
  simp [State.storeWrites, mem_regsUpTo, eq_comm]

/-! ### Keys -/

theorem keyOf_eq_some (b : Byte) (h : b.toNat < 16) : keyOf b = some ⟨b.toNat, h⟩ := dif_pos h

theorem keyOf_eq_none (b : Byte) (h : 0x0F < b.toNat) : keyOf b = none := dif_neg (by omega)

/-! ### The free inputs (R233, R235) -/

@[simp] theorem State.randomByte_cons (s : State) (b : Byte) (bs : List Byte) (h : s.randomBytes = b :: bs) :
    s.randomByte = b := by simp [State.randomByte, h]

@[simp] theorem State.keyPressed_cons (s : State) (k : Key) (b : Bool) (bs : List Bool) (h : s.keyAnswers = b :: bs) :
    s.keyPressed k = b := by simp [State.keyPressed, h]

end Sys2Proof.Machine
end

