-- ==== Sys2Proof/Laws/Decode.lean ====
section
/-! SUPPORT. The fields of the words the encoder builds, and the bytes of a word. -/

namespace Sys2Proof

theorem extract_wordXkk_x (op : Nibble) (x : Reg) (kk : Byte) :
    (wordXkk op x kk).extractLsb' 8 4 = regField x := by
  ext i hi
  simp [wordXkk]
  grind

theorem extract_wordXyn_x (op : Nibble) (x y : Reg) (n : Nibble) :
    (wordXyn op x y n).extractLsb' 8 4 = regField x := by
  ext i hi
  simp [wordXyn]
  grind

theorem extract_wordXyn_y (op : Nibble) (x y : Reg) (n : Nibble) :
    (wordXyn op x y n).extractLsb' 4 4 = regField y := by
  ext i hi
  simp [wordXyn]
  grind

@[simp] theorem opField_wordNnn (op : Nibble) (nnn : Addr) : opField (wordNnn op nnn) = op := by
  ext i hi
  simp [opField, wordNnn]
  grind

@[simp] theorem nnnField_wordNnn (op : Nibble) (nnn : Addr) : nnnField (wordNnn op nnn) = nnn := by
  ext i hi
  simp [nnnField, wordNnn]
  grind

@[simp] theorem opField_wordXkk (op : Nibble) (x : Reg) (kk : Byte) : opField (wordXkk op x kk) = op := by
  ext i hi
  simp [opField, wordXkk]
  grind

@[simp] theorem xField_wordXkk (op : Nibble) (x : Reg) (kk : Byte) : xField (wordXkk op x kk) = x := by
  rw [xField, extract_wordXkk_x]; rfl

@[simp] theorem kkField_wordXkk (op : Nibble) (x : Reg) (kk : Byte) : kkField (wordXkk op x kk) = kk := by
  ext i hi
  simp [kkField, wordXkk]
  grind

@[simp] theorem opField_wordXyn (op : Nibble) (x y : Reg) (n : Nibble) : opField (wordXyn op x y n) = op := by
  ext i hi
  simp [opField, wordXyn]
  grind

@[simp] theorem xField_wordXyn (op : Nibble) (x y : Reg) (n : Nibble) : xField (wordXyn op x y n) = x := by
  rw [xField, extract_wordXyn_x]; rfl

@[simp] theorem yField_wordXyn (op : Nibble) (x y : Reg) (n : Nibble) : yField (wordXyn op x y n) = y := by
  rw [yField, extract_wordXyn_y]; rfl

@[simp] theorem nField_wordXyn (op : Nibble) (x y : Reg) (n : Nibble) : nField (wordXyn op x y n) = n := by
  ext i hi
  simp [nField, wordXyn]
  grind

theorem regField_xField (w : Word) : regField (xField w) = w.extractLsb' 8 4 := rfl

theorem regField_yField (w : Word) : regField (yField w) = w.extractLsb' 4 4 := rfl

/-- A word is its fields `op` and `nnn`. -/
theorem wordNnn_fields (w : Word) : wordNnn (opField w) (nnnField w) = w := by
  ext i hi
  simp [wordNnn, opField, nnnField]
  grind

/-- A word is its fields `op`, `x` and `kk`. -/
theorem wordXkk_fields (w : Word) : wordXkk (opField w) (xField w) (kkField w) = w := by
  ext i hi
  simp [wordXkk, opField, kkField, regField_xField]
  grind

/-- A word is its fields `op`, `x`, `y` and `n`. -/
theorem wordXyn_fields (w : Word) : wordXyn (opField w) (xField w) (yField w) (nField w) = w := by
  ext i hi
  simp [wordXyn, opField, nField, regField_xField, regField_yField]
  grind

/-- The two bytes of a word give it back (R52). -/
@[simp] theorem wordOfBytes_bytes (w : Word) : wordOfBytes (highByte w) (lowByte w) = w := by
  ext i hi
  simp [wordOfBytes, highByte, lowByte]
  grind

@[simp] theorem highByte_wordOfBytes (hi lo : Byte) : highByte (wordOfBytes hi lo) = hi := by
  ext i hi
  simp [wordOfBytes, highByte]
  grind

@[simp] theorem lowByte_wordOfBytes (hi lo : Byte) : lowByte (wordOfBytes hi lo) = lo := by
  ext i hi
  simp [wordOfBytes, lowByte]
  grind

end Sys2Proof
end

