-- ==== Sys2Proof/Laws/Display.lean ====
section
/-! SUPPORT. The laws of the framebuffer (R231, R232). -/

namespace Sys2Proof.Machine

/-- A toggle inverts its pixel and leaves every other one. -/
theorem FrameBuffer.pixel_toggle (fb : FrameBuffer) (px qx : Column) (py qy : Row) :
    (fb.toggle px py).pixel qx qy = (fb.pixel qx qy ^^ decide ((qx, qy) = (px, py))) := by
  simp only [FrameBuffer.pixel, FrameBuffer.toggle, Vector.getElem_set, Prod.mk.injEq]
  by_cases h : py = qy
  · subst h
    by_cases h' : px = qx
    · subst h'; simp
    · have : px.val ≠ qx.val := fun h => h' (Fin.ext h)
      simp [this, eq_comm, h']
  · have : py.val ≠ qy.val := fun h' => h (Fin.ext h')
    simp [this, eq_comm, h]

@[simp] theorem FrameBuffer.pixel_clear (px : Column) (py : Row) : FrameBuffer.clear.pixel px py = false := by
  simp [FrameBuffer.pixel, FrameBuffer.clear]

/-- Two framebuffers with the same pixels are equal. -/
theorem FrameBuffer.ext_pixel (f g : FrameBuffer) (h : ∀ px py, f.pixel px py = g.pixel px py) : f = g := by
  refine Vector.ext fun j hj => Vector.ext fun k hk => ?_
  exact h ⟨k, hk⟩ ⟨j, hj⟩

/-- Toggling the pixels of a list without repeats inverts exactly them, and a collision is a listed pixel that was
set. -/
theorem foldl_drawPixel (ps : List (Column × Row)) (hps : ps.Nodup) (fb : FrameBuffer) (c : Bool) :
    (∀ px py, (ps.foldl drawPixel (fb, c)).1.pixel px py = (fb.pixel px py ^^ decide ((px, py) ∈ ps))) ∧
    ((ps.foldl drawPixel (fb, c)).2 = true ↔ c = true ∨ ∃ p ∈ ps, fb.pixel p.1 p.2 = true) := by
  induction ps generalizing fb c with
  | nil => simp
  | cons p ps ih =>
    obtain ⟨hp, hnd⟩ := List.nodup_cons.mp hps
    obtain ⟨h1, h2⟩ := ih hnd (fb.toggle p.1 p.2) (c || fb.pixel p.1 p.2)
    rw [List.foldl_cons]
    refine ⟨fun px py => ?_, ?_⟩
    · rw [drawPixel, h1, FrameBuffer.pixel_toggle, Bool.xor_assoc]
      congr 1
      by_cases h : (px, py) = p
      · subst h; simp [hp]
      · simp [h]
    · rw [drawPixel, h2, Bool.or_eq_true]
      have : (∃ q ∈ ps, (fb.toggle p.1 p.2).pixel q.1 q.2 = true) ↔ ∃ q ∈ ps, fb.pixel q.1 q.2 = true := by
        refine exists_congr fun q => and_congr_right fun hq => ?_
        rw [FrameBuffer.pixel_toggle]
        have : q ≠ p := fun h => hp (h ▸ hq)
        simp [this]
      rw [this, or_assoc]
      simp only [List.mem_cons, exists_eq_or_imp]

/-- A pixel a sprite row hits: a set bit `7 - c` of the byte, at column `x + c` (R232). -/
theorem mem_rowPixels (x b : Byte) (py : Row) (p : Column × Row) :
    p ∈ rowPixels x py b ↔
      ∃ c < 8, b.getLsbD (7 - c) = true ∧ p = (Fin.ofNat 64 (x.toNat + c), py) := by
  simp only [rowPixels, List.mem_map, List.mem_filter, List.mem_range]
  exact ⟨fun ⟨c, ⟨hc, hb⟩, e⟩ => ⟨c, hc, hb, e.symm⟩, fun ⟨c, hc, hb, e⟩ => ⟨c, ⟨hc, hb⟩, e.symm⟩⟩

/-- A pixel a sprite hits: a set bit of one of its rows (R232). -/
theorem mem_spritePixels (x y : Byte) (rows : List Byte) (r : Nat) (p : Column × Row) :
    p ∈ spritePixels x y r rows ↔
      ∃ k, ∃ h : k < rows.length, ∃ c < 8, rows[k].getLsbD (7 - c) = true ∧
        p = (Fin.ofNat 64 (x.toNat + c), Fin.ofNat 32 (y.toNat + (r + k))) := by
  induction rows generalizing r with
  | nil => simp [spritePixels]
  | cons b rows ih =>
    rw [spritePixels, List.mem_append, mem_rowPixels, ih]
    constructor
    · rintro (⟨c, hc, hb, rfl⟩ | ⟨k, h, c, hc, hb, rfl⟩)
      · exact ⟨0, by simp, c, hc, by simpa using hb, rfl⟩
      · exact ⟨k + 1, by simpa using h, c, hc, by simpa using hb, by rw [Nat.add_right_comm r 1 k, Nat.add_assoc]⟩
    · rintro ⟨k, h, c, hc, hb, rfl⟩
      cases k with
      | zero => exact .inl ⟨c, hc, by simpa using hb, rfl⟩
      | succ k =>
        exact .inr ⟨k, by simpa using h, c, hc, by simpa using hb, by rw [Nat.add_right_comm r 1 k, Nat.add_assoc]⟩

theorem rowPixels_nodup (x b : Byte) (py : Row) : (rowPixels x py b).Nodup := by
  refine List.Nodup.map_on ?_ (List.nodup_range.filter _)
  intro c hc d hd h
  simp only [List.mem_filter, List.mem_range] at hc hd
  have := congrArg (fun p : Column × Row => p.1.val) h
  simp only [Fin.ofNat] at this
  omega

/-- No pixel is hit twice within one sprite of at most 32 rows (R232). -/
theorem spritePixels_nodup (x y : Byte) (rows : List Byte) (r : Nat) (h : rows.length ≤ 32) :
    (spritePixels x y r rows).Nodup := by
  induction rows generalizing r with
  | nil => exact List.nodup_nil
  | cons b rows ih =>
    rw [List.length_cons] at h
    rw [spritePixels, List.nodup_append]
    refine ⟨rowPixels_nodup x b _, ih (r + 1) (by omega), fun p hp q hq e => ?_⟩
    obtain ⟨c, -, -, rfl⟩ := (mem_rowPixels ..).mp hp
    obtain ⟨k, hk, d, -, -, rfl⟩ := (mem_spritePixels ..).mp hq
    have := congrArg (fun p : Column × Row => p.2.val) e
    simp only [Fin.ofNat] at this
    omega

end Sys2Proof.Machine
end

