-- ==== Sys2Proof/Laws/PerInstr.lean ====
section
/-! SUPPORT. Facts about every instruction as syntax, one lemma per constructor. -/

namespace Sys2Proof.Laws.EncodingRow

/-- The word of an instruction carries the fixed bits of its row of spec/opcode_table.json (R75). -/
def Statement (i : Instr) : Prop := encode i &&& i.rowMask = i.rowMatch

theorem mask_wordNnn (op : Nibble) (nnn : Addr) : wordNnn op nnn &&& 0xF000#16 = wordNnn op 0#12 := by
  ext i hi
  have : i < 16 := hi
  interval_cases i <;> simp [wordNnn]

theorem mask_wordXkk (op : Nibble) (x : Reg) (kk : Byte) : wordXkk op x kk &&& 0xF000#16 = wordXkk op 0 0#8 := by
  ext i hi
  have : i < 16 := hi
  interval_cases i <;> simp [wordXkk, regField]

theorem mask_wordXkk_kk (op : Nibble) (x : Reg) (kk : Byte) : wordXkk op x kk &&& 0xF0FF#16 = wordXkk op 0 kk := by
  ext i hi
  have : i < 16 := hi
  interval_cases i <;> simp [wordXkk, regField]

theorem mask_wordXyn (op : Nibble) (x y : Reg) (n : Nibble) : wordXyn op x y n &&& 0xF000#16 = wordXyn op 0 0 0#4 := by
  ext i hi
  have : i < 16 := hi
  interval_cases i <;> simp [wordXyn, regField]

theorem mask_wordXyn_n (op : Nibble) (x y : Reg) (n : Nibble) : wordXyn op x y n &&& 0xF00F#16 = wordXyn op 0 0 n := by
  ext i hi
  have : i < 16 := hi
  interval_cases i <;> simp [wordXyn, regField]

theorem cls : Statement .cls := by unfold Statement; decide
theorem ret : Statement .ret := by unfold Statement; decide
theorem sys (nnn : Addr) : Statement (.sys nnn) := (mask_wordNnn _ nnn).trans rfl
theorem jp (nnn : Addr) : Statement (.jp nnn) := (mask_wordNnn _ nnn).trans rfl
theorem call (nnn : Addr) : Statement (.call nnn) := (mask_wordNnn _ nnn).trans rfl
theorem seImm (x : Reg) (kk : Byte) : Statement (.seImm x kk) := (mask_wordXkk _ x kk).trans rfl
theorem sneImm (x : Reg) (kk : Byte) : Statement (.sneImm x kk) := (mask_wordXkk _ x kk).trans rfl
theorem seReg (x y : Reg) : Statement (.seReg x y) := (mask_wordXyn_n _ x y _).trans rfl
theorem ldImm (x : Reg) (kk : Byte) : Statement (.ldImm x kk) := (mask_wordXkk _ x kk).trans rfl
theorem addImm (x : Reg) (kk : Byte) : Statement (.addImm x kk) := (mask_wordXkk _ x kk).trans rfl
theorem ldReg (x y : Reg) : Statement (.ldReg x y) := (mask_wordXyn_n _ x y _).trans rfl
theorem orReg (x y : Reg) : Statement (.orReg x y) := (mask_wordXyn_n _ x y _).trans rfl
theorem andReg (x y : Reg) : Statement (.andReg x y) := (mask_wordXyn_n _ x y _).trans rfl
theorem xorReg (x y : Reg) : Statement (.xorReg x y) := (mask_wordXyn_n _ x y _).trans rfl
theorem addReg (x y : Reg) : Statement (.addReg x y) := (mask_wordXyn_n _ x y _).trans rfl
theorem sub (x y : Reg) : Statement (.sub x y) := (mask_wordXyn_n _ x y _).trans rfl
theorem shr (x y : Reg) : Statement (.shr x y) := (mask_wordXyn_n _ x y _).trans rfl
theorem subn (x y : Reg) : Statement (.subn x y) := (mask_wordXyn_n _ x y _).trans rfl
theorem shl (x y : Reg) : Statement (.shl x y) := (mask_wordXyn_n _ x y _).trans rfl
theorem sneReg (x y : Reg) : Statement (.sneReg x y) := (mask_wordXyn_n _ x y _).trans rfl
theorem ldI (nnn : Addr) : Statement (.ldI nnn) := (mask_wordNnn _ nnn).trans rfl
theorem jpV0 (nnn : Addr) : Statement (.jpV0 nnn) := (mask_wordNnn _ nnn).trans rfl
theorem rnd (x : Reg) (kk : Byte) : Statement (.rnd x kk) := (mask_wordXkk _ x kk).trans rfl
theorem drw (x y : Reg) (n : Nibble) : Statement (.drw x y n) := (mask_wordXyn _ x y n).trans rfl
theorem skp (x : Reg) : Statement (.skp x) := (mask_wordXkk_kk _ x _).trans rfl
theorem sknp (x : Reg) : Statement (.sknp x) := (mask_wordXkk_kk _ x _).trans rfl
theorem ldVxDT (x : Reg) : Statement (.ldVxDT x) := (mask_wordXkk_kk _ x _).trans rfl
theorem ldK (x : Reg) : Statement (.ldK x) := (mask_wordXkk_kk _ x _).trans rfl
theorem ldDT (x : Reg) : Statement (.ldDT x) := (mask_wordXkk_kk _ x _).trans rfl
theorem ldST (x : Reg) : Statement (.ldST x) := (mask_wordXkk_kk _ x _).trans rfl
theorem addI (x : Reg) : Statement (.addI x) := (mask_wordXkk_kk _ x _).trans rfl
theorem ldF (x : Reg) : Statement (.ldF x) := (mask_wordXkk_kk _ x _).trans rfl
theorem ldB (x : Reg) : Statement (.ldB x) := (mask_wordXkk_kk _ x _).trans rfl
theorem storeRegs (x : Reg) : Statement (.storeRegs x) := (mask_wordXkk_kk _ x _).trans rfl
theorem loadRegs (x : Reg) : Statement (.loadRegs x) := (mask_wordXkk_kk _ x _).trans rfl

end Sys2Proof.Laws.EncodingRow
end

