-- ==== Sys2Proof/Laws/Step.lean ====
section
/-! SUPPORT. What one step can do, once and for all. -/

namespace Sys2Proof.Machine

@[simp] theorem State.fetchWord_popTurn (s : State) : s.popTurn.fetchWord = s.fetchWord := rfl

@[simp] theorem State.nextTurn_of_nil (s : State) (h : s.turns = []) : s.nextTurn = .engine := by
  simp [State.nextTurn, h]

@[simp] theorem State.nextTurn_of_cons (s : State) (t : Turn) (ts : List Turn) (h : s.turns = t :: ts) :
    s.nextTurn = t := by simp [State.nextTurn, h]

/-- A fetch needs PC ≤ 0x0FFE (R74). -/
theorem fetchable_iff (pc : Word) : fetchable pc = true ↔ pc.toNat ≤ 0x0FFE := decide_eq_true_iff

/-- The agents other than the host's reset take steps in Running and AwaitingKey only. -/
theorem whenLive_next {s t : State} {r : Host.Outcome State Fault Refusal}
    {a : Reg → Host.Outcome State Fault Refusal} (h : whenLive s r a = .next t) :
    (s.run = .running ∧ r = .next t) ∨ (∃ x, s.run = .awaitingKey x ∧ a x = .next t) := by
  unfold whenLive at h
  split at h
  · exact .inl ⟨‹_›, h⟩
  · exact .inr ⟨_, ‹_›, h⟩
  · cases h
  · cases h

/-- The ways a step from `s` can answer `next t`: the turn and the run state of `s`, and what `t` then is. -/
inductive StepCase (s t : State) : Prop
  /-- The engine executed the instruction at PC. -/
  | executed (i : Instr) (turn : s.nextTurn = .engine) (run : s.run = .running) (pc : s.pc.toNat ≤ 0x0FFE)
      (dec : decode s.fetchWord = .ok i) (eff : exec i s.popTurn = .next t)
  /-- The engine found an Unsupported word at PC. -/
  | unsupported (e : DecodeError) (turn : s.nextTurn = .engine) (run : s.run = .running) (pc : s.pc.toNat ≤ 0x0FFE)
      (dec : decode s.fetchWord = .error e) (eff : t = s.popTurn.unsupported s.fetchWord)
  /-- The engine could not fetch at PC. -/
  | outOfRange (turn : s.nextTurn = .engine) (run : s.run = .running) (pc : 0x0FFE < s.pc.toNat)
      (eff : t = s.popTurn.raiseFault .pcOutOfRange none .none)
  /-- The engine waits for a key. -/
  | waiting (x : Reg) (turn : s.nextTurn = .engine) (run : s.run = .awaitingKey x) (eff : t = s.popTurn)
  /-- A timer tick. -/
  | ticked (turn : s.nextTurn = .timer) (run : s.run = .running ∨ ∃ x, s.run = .awaitingKey x)
      (eff : t = tick s.popTurn)
  /-- A key press that nothing waits for. -/
  | ignoredKey (k : Key) (turn : s.nextTurn = .key k) (run : s.run = .running) (eff : t = s.popTurn)
  /-- A key press delivered to Fx0A. -/
  | delivered (k : Key) (x : Reg) (turn : s.nextTurn = .key k) (run : s.run = .awaitingKey x)
      (eff : t = deliverKey x k s.popTurn)
  /-- The stop signal. -/
  | stopped (turn : s.nextTurn = .stop) (run : s.run = .running ∨ ∃ x, s.run = .awaitingKey x)
      (eff : t = stopSignal s.popTurn)
  /-- A reset with a ROM. -/
  | booted (rom : List Byte) (turn : s.nextTurn = .reset rom) (len : rom.length ≤ 0xE00)
      (eff : boot rom s.popTurn = .next t)

/-- Everything a step that answers a next state can have done. -/
theorem step_cases {s t : State} (h : step s = .next t) : StepCase s t := by
  unfold step takeTurn at h
  split at h
  · rename_i turn
    rcases whenLive_next h with ⟨run, h⟩ | ⟨x, run, h⟩
    · unfold cycle at h
      split at h
      · rename_i pc
        have pc : s.pc.toNat ≤ 0x0FFE := (fetchable_iff _).mp pc
        split at h
        · exact .executed _ turn run pc ‹_› h
        · cases h; exact .unsupported _ turn run pc ‹_› rfl
      · rename_i pc
        cases h
        exact .outOfRange turn run (not_le.mp ((fetchable_iff _).not.mp pc)) rfl
    · cases h; exact .waiting x turn run rfl
  · rename_i turn
    rcases whenLive_next h with ⟨run, h⟩ | ⟨x, run, h⟩
    · cases h; exact .ticked turn (.inl run) rfl
    · cases h; exact .ticked turn (.inr ⟨x, run⟩) rfl
  · rename_i k turn
    rcases whenLive_next h with ⟨run, h⟩ | ⟨x, run, h⟩
    · cases h; exact .ignoredKey k turn run rfl
    · cases h; exact .delivered k x turn run rfl
  · rename_i turn
    rcases whenLive_next h with ⟨run, h⟩ | ⟨x, run, h⟩
    · cases h; exact .stopped turn (.inl run) rfl
    · cases h; exact .stopped turn (.inr ⟨x, run⟩) rfl
  · rename_i rom turn
    refine .booted rom turn ?_ h
    unfold boot at h
    split at h
    · assumption
    · cases h

/-- What `storeAll` can do: all the writes and the advance, or the FontWrite fault of one of the targets (R56). -/
theorem storeAll_cases (i : Instr) (ws : List (Addr × Byte)) (s : State) :
    ((∀ w ∈ ws, 0x04F < w.1.toNat) ∧ storeAll i ws s = { s with mem := s.mem.writeAll ws, pc := s.pc + 2 }) ∨
    (∃ w ∈ ws, w.1.toNat ≤ 0x04F ∧ storeAll i ws s = s.raiseIn i .fontWrite (.address w.1)) := by
  unfold storeAll
  rcases s.writeChecked_cases ws with ⟨h, e⟩ | ⟨w, hw, hf, e⟩
  · exact .inl ⟨fun w hw => (inFont_eq_false_iff _).mp (h w hw), by rw [e]; rfl⟩
  · exact .inr ⟨w, hw, (inFont_iff _).mp hf, by rw [e]⟩

/-- An unlisted reset memory byte of the font region is the font's (R36). -/
theorem Memory.read_reset (a : Nat) : State.reset.mem.read a = resetByte a := rfl

/-- Bytes loaded from `a` upward read back at their addresses, every other address reads as before (R238). -/
theorem Memory.load_spec (bs : List Byte) (m : Memory) (hm : m.wf) (a : Nat) (h : a + bs.length ≤ 0x1000) :
    (m.load a bs).wf ∧
    ∀ q, (m.load a bs).read q = if h : a ≤ q ∧ q - a < bs.length then bs[q - a]'h.2 else m.read q := by
  induction bs generalizing m a with
  | nil => exact ⟨hm, fun q => by simp [Memory.load]⟩
  | cons b bs ih =>
    rw [List.length_cons] at h
    obtain ⟨h1, h2⟩ := ih (m.write a b) (Memory.write_wf m hm a (by omega) b) (a + 1) (by omega)
    refine ⟨h1, fun q => ?_⟩
    rw [Memory.load, h2, Memory.read_write m hm.1]
    by_cases hq : q = a
    · subst hq; simp
    · by_cases hlt : a + 1 ≤ q ∧ q - (a + 1) < bs.length
      · have e : q - a = (q - (a + 1)) + 1 := by omega
        rw [dif_pos hlt, dif_pos (by rw [List.length_cons]; omega)]
        simp only [e, List.getElem_cons_succ]
      · rw [dif_neg hlt, if_neg hq, dif_neg (by rw [List.length_cons]; omega)]

end Sys2Proof.Machine
end

