-- ==== Sys2Proof/Tests/Slice0.lean ====
section
/-! SUPPORT. The model's own tests. Expected results are the spec's: words from its encodings (spec/30_encoding.md R75),
one step each from spec/95_test_vectors.md (named in the comments). The last part gives, for each obligation with
hypotheses, a concrete state and operands that meet them. -/

namespace Sys2Proof.Tests

open Sys2Proof Sys2Proof.Machine

/-! ## Helpers -/

/-- `s` with some V registers set. -/
def withRegs (rs : List (Reg × Byte)) (s : State := .reset) : State := rs.foldl (fun t p => t.setReg p.1 p.2) s

/-- `s` with bytes put at an address. -/
def withBytes (a : Nat) (bs : List Byte) (s : State := .reset) : State := { s with mem := s.mem.load a bs }

/-- What `f` reads of the state after the engine runs word `w` at `s`. -/
def after {α : Type} (w : Word) (s : State) (f : State → α) : Option α :=
  match step (s.withFetchWord 16 w.toNat) with
  | .next t => some (f t)
  | .fault _ => none
  | .refused _ => none

/-- What `f` reads of the state after one turn. -/
def afterTurn {α : Type} (t : Turn) (s : State) (f : State → α) : Option α :=
  match step { s with turns := [t] } with
  | .next t => some (f t)
  | .fault _ => none
  | .refused _ => none

/-- The columns of a row whose pixels are set. -/
def litColumns (s : State) (py : Row) : List Nat := (List.range 64).filter fun c => s.pixel (Fin.ofNat 64 c) py

/-- The fault a state halted with. -/
def faultOf (s : State) : Option (FaultKind × FaultInfo) := s.faultRecord.map fun f => (f.kind, f.info)

/-! ## Well-formedness: the two ill-formed shapes are refused (R76) -/

theorem test_wf_sys_is_not_cls : (Instr.sys 0x0E0).wellFormed = false := by decide
theorem test_wf_sys_is_not_ret : (Instr.sys 0x0EE).wellFormed = false := by decide
theorem test_wf_sys_zero : (Instr.sys 0x000).wellFormed = true := by decide

/-! ## Decoding: words written out from R75 -/

theorem test_decode_cls : decode 0b0000_0000_1110_0000#16 = .ok .cls := by decide
theorem test_decode_ret : decode 0b0000_0000_1110_1110#16 = .ok .ret := by decide
theorem test_decode_sys : decode 0b0000_0001_0010_0011#16 = .ok (.sys 0x123) := by decide
theorem test_decode_jp : decode 0b0001_1010_1011_1100#16 = .ok (.jp 0xABC) := by decide
theorem test_decode_call : decode 0b0010_0100_0000_0001#16 = .ok (.call 0x401) := by decide
theorem test_decode_se_imm : decode 0b0011_0011_0001_0010#16 = .ok (.seImm 3 0x12) := by decide
theorem test_decode_sne_imm : decode 0b0100_1110_0000_0001#16 = .ok (.sneImm 14 0x01) := by decide
theorem test_decode_se_reg : decode 0b0101_0001_0010_0000#16 = .ok (.seReg 1 2) := by decide
theorem test_decode_ld_imm : decode 0b0110_1010_0010_1111#16 = .ok (.ldImm 10 0x2F) := by decide
theorem test_decode_add_imm : decode 0b0111_0001_0000_1010#16 = .ok (.addImm 1 0x0A) := by decide
theorem test_decode_ld_reg : decode 0b1000_1111_0010_0000#16 = .ok (.ldReg 15 2) := by decide
theorem test_decode_or : decode 0b1000_0001_0010_0001#16 = .ok (.orReg 1 2) := by decide
theorem test_decode_and : decode 0b1000_0001_0010_0010#16 = .ok (.andReg 1 2) := by decide
theorem test_decode_xor : decode 0b1000_0001_0010_0011#16 = .ok (.xorReg 1 2) := by decide
theorem test_decode_add_reg : decode 0b1000_0001_0010_0100#16 = .ok (.addReg 1 2) := by decide
theorem test_decode_sub : decode 0b1000_0001_0010_0101#16 = .ok (.sub 1 2) := by decide
theorem test_decode_shr : decode 0b1000_0001_0010_0110#16 = .ok (.shr 1 2) := by decide
theorem test_decode_subn : decode 0b1000_0001_0010_0111#16 = .ok (.subn 1 2) := by decide
theorem test_decode_shl : decode 0b1000_0001_0010_1110#16 = .ok (.shl 1 2) := by decide
theorem test_decode_sne_reg : decode 0b1001_0001_0010_0000#16 = .ok (.sneReg 1 2) := by decide
theorem test_decode_ld_i : decode 0b1010_0001_0010_0011#16 = .ok (.ldI 0x123) := by decide
theorem test_decode_jp_v0 : decode 0b1011_0101_1111_1110#16 = .ok (.jpV0 0x5FE) := by decide
theorem test_decode_rnd : decode 0b1100_0011_0000_1111#16 = .ok (.rnd 3 0x0F) := by decide
theorem test_decode_drw : decode 0b1101_0001_0010_0101#16 = .ok (.drw 1 2 5) := by decide
theorem test_decode_skp : decode 0b1110_0101_1001_1110#16 = .ok (.skp 5) := by decide
theorem test_decode_sknp : decode 0b1110_0101_1010_0001#16 = .ok (.sknp 5) := by decide
theorem test_decode_ld_vx_dt : decode 0b1111_0001_0000_0111#16 = .ok (.ldVxDT 1) := by decide
theorem test_decode_ld_k : decode 0b1111_0011_0000_1010#16 = .ok (.ldK 3) := by decide
theorem test_decode_ld_dt : decode 0b1111_0110_0001_0101#16 = .ok (.ldDT 6) := by decide
theorem test_decode_ld_st : decode 0b1111_0010_0001_1000#16 = .ok (.ldST 2) := by decide
theorem test_decode_add_i : decode 0b1111_0111_0001_1110#16 = .ok (.addI 7) := by decide
theorem test_decode_ld_f : decode 0b1111_1010_0010_1001#16 = .ok (.ldF 10) := by decide
theorem test_decode_ld_b : decode 0b1111_0100_0011_0011#16 = .ok (.ldB 4) := by decide
theorem test_decode_store_regs : decode 0b1111_0011_0101_0101#16 = .ok (.storeRegs 3) := by decide
theorem test_decode_load_regs : decode 0b1111_1111_0110_0101#16 = .ok (.loadRegs 15) := by decide

/-- SK8, SK11, AL33, SK19, FD4: fixed sub-fields with another value are Unsupported (R77). -/
theorem test_decode_unsupported :
    ([0x5121, 0x9121, 0x8128, 0x812F, 0xE09F, 0xF000, 0xF0FF, 0xF0A1, 0xE000] : List Word).all
      (fun w => decode w = .error (.unsupported w)) = true := by decide

/-- R70: one length only; fewer bytes than two are no instruction. -/
theorem test_decode_bytes :
    decodeBytes [0x12, 0x34, 0x56] = .ok (.jp 0x234, [0x56]) ∧ decodeBytes [0x12] = .error .truncated := by decide

/-! ## Control transfer (spec/95_test_vectors.md 2.1) -/

/-- CF1, CF3. -/
theorem test_jp : after 0x1ABC .reset (·.pc) = some 0x0ABC ∧ after 0x1FFF .reset (·.pc) = some 0x0FFF := by decide
/-- CF4. -/
theorem test_call_fills_last_slot :
    after 0x2400 { State.reset with sp := 15 } (fun t => (t.stack[15], t.sp, t.pc)) = some (0x202, 16, 0x400) := by decide
/-- CF5. -/
theorem test_call_overflow :
    after 0x2400 { State.reset with sp := 16 } (fun t => (faultOf t, t.sp, t.pc))
      = some (some (.stackOverflow, .none), 16, 0x200) := by decide
/-- R100's example. -/
theorem test_ret :
    after 0x00EE { State.reset with sp := 1, stack := .replicate 16 0x206 } (fun t => (t.pc, t.sp, t.stack[0]))
      = some (0x206, 0, 0x206) := by decide
/-- CF6. -/
theorem test_ret_underflow :
    after 0x00EE .reset (fun t => (faultOf t, t.sp, t.pc)) = some (some (.stackUnderflow, .none), 0, 0x200) := by decide
/-- CF9. -/
theorem test_jp_v0_passes_memory : after 0xBFFF (withRegs [(0, 0xFF)]) (·.pc) = some 0x10FE := by decide
/-- CF10. -/
theorem test_jp_v0_ignores_x : after 0xB5FF (withRegs [(5, 0x10)]) (·.pc) = some 0x05FF := by decide
/-- CF11, CF13: the record, with its code (R210). -/
theorem test_sys :
    after 0x0123 .reset (·.faultRecord) = some (some
      { kind := .unsupportedOpcode, pc := 0x200, word := some 0x0123, info := .none }) ∧
    FaultKind.code .unsupportedOpcode = 3 := by decide

/-! ## Conditional skips (2.2) -/

/-- SK1, SK2. -/
theorem test_se_imm :
    after 0x3310 (withRegs [(3, 0x10)]) (·.pc) = some 0x204 ∧ after 0x3311 (withRegs [(3, 0x10)]) (·.pc) = some 0x202 := by
  decide
/-- SK4, SK5. -/
theorem test_sne_imm :
    after 0x4001 .reset (·.pc) = some 0x204 ∧ after 0x4001 (withRegs [(0, 1)]) (·.pc) = some 0x202 := by decide
/-- SK6, and unequal registers (R122). -/
theorem test_se_reg :
    after 0x5120 (withRegs [(1, 0x7F), (2, 0x7F)]) (·.pc) = some 0x204 ∧
    after 0x5120 (withRegs [(1, 0x7F)]) (·.pc) = some 0x202 := by decide
/-- SK9, SK10. -/
theorem test_sne_reg :
    after 0x9120 (withRegs [(1, 1), (2, 2)]) (·.pc) = some 0x204 ∧ after 0x9110 .reset (·.pc) = some 0x202 := by decide
/-- SK12, SK13. -/
theorem test_skp :
    after 0xE59E { withRegs [(5, 0x0A)] with keyAnswers := [true] } (·.pc) = some 0x204 ∧
    after 0xE59E { withRegs [(5, 0x0A)] with keyAnswers := [false] } (·.pc) = some 0x202 := by decide
/-- SK14, SK15. -/
theorem test_sknp :
    after 0xE5A1 { withRegs [(5, 0x0A)] with keyAnswers := [false] } (·.pc) = some 0x204 ∧
    after 0xE5A1 { withRegs [(5, 0x0A)] with keyAnswers := [true] } (·.pc) = some 0x202 := by decide
/-- SK16. -/
theorem test_key_skip_invalid :
    after 0xE59E (withRegs [(5, 0x10)]) (fun t => (faultOf t, t.polls)) = some (some (.invalidKey, .key 0x10), 0) ∧
    after 0xE5A1 (withRegs [(5, 0x10)]) (fun t => (faultOf t, t.polls)) = some (some (.invalidKey, .key 0x10), 0) := by
  decide

/-! ## Register loads and ALU (1 and 2.3) -/

/-- W1. -/
theorem test_ld_imm : after 0x6A2F .reset (fun t => (t.reg 10, t.pc)) = some (0x2F, 0x202) := by decide
/-- W4. -/
theorem test_add_imm_wraps : after 0x710A (withRegs [(1, 0xFA), (15, 0x77)]) (fun t => (t.reg 1, t.reg VF)) = some (4, 0x77) := by
  decide
/-- AL1. -/
theorem test_add_imm_to_vf : after 0x7FFF (withRegs [(15, 1)]) (·.reg VF) = some 0 := by decide
/-- AL3. -/
theorem test_ld_reg : after 0x8F20 (withRegs [(2, 0x55)]) (·.reg VF) = some 0x55 := by decide
/-- AL4. -/
theorem test_or : after 0x8121 (withRegs [(1, 0xF0), (2, 0x0F), (15, 0x5A)]) (fun t => (t.reg 1, t.reg VF)) = some (0xFF, 0x5A) := by
  decide
/-- AL5. -/
theorem test_and : after 0x8122 (withRegs [(1, 0xF0), (2, 0x3C), (15, 0x5A)]) (fun t => (t.reg 1, t.reg VF)) = some (0x30, 0x5A) := by
  decide
/-- AL6. -/
theorem test_xor : after 0x8123 (withRegs [(1, 0xF0), (2, 0x3C)]) (·.reg 1) = some 0xCC := by decide
/-- W5. -/
theorem test_add_reg : after 0x8124 (withRegs [(1, 0xC8), (2, 0x64)]) (fun t => (t.reg 1, t.reg VF)) = some (0x2C, 1) := by decide
/-- AL10. -/
theorem test_add_reg_to_vf : after 0x8F14 (withRegs [(15, 0x80), (1, 0x80)]) (fun t => (t.reg VF, t.reg 1)) = some (1, 0x80) := by
  decide
/-- AL14, AL15. -/
theorem test_sub :
    after 0x8125 (withRegs [(1, 3), (2, 5)]) (fun t => (t.reg 1, t.reg VF)) = some (0xFE, 0) ∧
    after 0x8125 (withRegs [(1, 5), (2, 5)]) (fun t => (t.reg 1, t.reg VF)) = some (0, 1) := by decide
/-- AL17. -/
theorem test_sub_to_vf : after 0x8F15 (withRegs [(15, 3), (1, 5)]) (·.reg VF) = some 0 := by decide
/-- AL20: Vy is ignored. -/
theorem test_shr : after 0x8126 (withRegs [(1, 4), (2, 0xFF), (15, 0x77)]) (fun t => (t.reg 1, t.reg VF)) = some (2, 0) := by decide
/-- AL21. -/
theorem test_shr_vf : after 0x8F06 (withRegs [(15, 3)]) (·.reg VF) = some 1 := by decide
/-- AL23, AL24. -/
theorem test_subn :
    after 0x8127 (withRegs [(1, 3), (2, 5)]) (fun t => (t.reg 1, t.reg VF)) = some (2, 1) ∧
    after 0x8127 (withRegs [(1, 5), (2, 3)]) (fun t => (t.reg 1, t.reg VF)) = some (0xFE, 0) := by decide
/-- R152's example. -/
theorem test_shl : after 0x8AAE (withRegs [(10, 0x81)]) (fun t => (t.reg 10, t.reg VF)) = some (0x02, 1) := by decide
/-- AL29. -/
theorem test_shl_vf : after 0x8F0E (withRegs [(15, 0x81)]) (·.reg VF) = some 1 := by decide
/-- AL30, with the draw taken off the list. -/
theorem test_rnd :
    after 0xC30F { State.reset with randomBytes := [0xB7, 0x11] } (fun t => (t.reg 3, t.randomBytes, t.draws))
      = some (0x07, [0x11], 1) := by decide
/-- AL31: kk = 0 gives 0 for any draw, the free value included. -/
theorem test_rnd_zero_mask : after 0xC300 .reset (·.reg 3) = some 0 := by
  have h : ∀ b : Byte, b &&& 0 = 0 := by simp
  exact congrArg some (h (Config.freeRandomByte 0))

/-! ## Address register and memory (2.4) -/

/-- IM1. -/
theorem test_ld_i : after 0xA123 .reset (·.i) = some 0x0123 := by decide
/-- IM2, IM4. -/
theorem test_add_i :
    after 0xF01E (withRegs [(0, 1)] { State.reset with i := 0x0FFF }) (fun t => (t.i, t.reg VF)) = some (0x1000, 1) ∧
    after 0xF01E (withRegs [(0, 0xFF), (15, 1)] { State.reset with i := 0x0100 }) (fun t => (t.i, t.reg VF))
      = some (0x01FF, 0) := by decide
/-- IM3, IM5. -/
theorem test_add_i_wraps :
    after 0xF01E (withRegs [(0, 1)] { State.reset with i := 0xFFFF }) (fun t => (t.i, t.reg VF)) = some (0, 1) ∧
    after 0xFF1E (withRegs [(15, 0x20)] { State.reset with i := 0x0FF0 }) (fun t => (t.i, t.reg VF))
      = some (0x1010, 1) := by decide
/-- W10, IM10. -/
theorem test_ld_f :
    after 0xFA29 (withRegs [(10, 0x0A)]) (·.i) = some 0x32 ∧ after 0xF029 (withRegs [(0, 0xFF)]) (·.i) = some 0x4FB := by
  decide
/-- IM13: I above 0x0FFF addresses memory by its low 12 bits. -/
theorem test_ld_b :
    after 0xF033 (withRegs [(0, 255)] { State.reset with i := 0x1300 })
      (fun t => (t.readByte 0x300, t.readByte 0x301, t.readByte 0x302, t.i)) = some (2, 5, 5, 0x1300) := by decide
/-- IM14. -/
theorem test_ld_b_font :
    after 0xF033 (withRegs [(0, 123)] { State.reset with i := 0x0FFE })
      (fun t => (faultOf t, t.readByte 0xFFE, t.readByte 0xFFF)) = some (some (.fontWrite, .address 0x000), 0, 0) := by
  decide
/-- IM18. -/
theorem test_store_regs :
    after 0xF355 (withRegs [(0, 1), (1, 2), (2, 3), (3, 4), (4, 5)] { State.reset with i := 0x300 })
      (fun t => (t.readByte 0x300, t.readByte 0x303, t.readByte 0x304, t.i)) = some (1, 4, 0, 0x300) := by decide
/-- IM16, IM17. -/
theorem test_store_regs_font_edge :
    after 0xF055 { State.reset with i := 0x004F } faultOf = some (some (.fontWrite, .address 0x04F)) ∧
    after 0xF055 (withRegs [(0, 0xAB)] { State.reset with i := 0x0050 }) (·.readByte 0x050) = some 0xAB := by decide
/-- IM19: the address wraps, and the font may be read. -/
theorem test_load_regs_wraps :
    after 0xF165 { State.reset with i := 0x0FFF } (fun t => (t.reg 0, t.reg 1)) = some (0x00, 0xF0) := by decide
/-- R175's example. -/
theorem test_load_regs :
    after 0xF265 (withBytes 0x300 [2, 5, 4, 9] { State.reset with i := 0x300 })
      (fun t => (t.reg 0, t.reg 1, t.reg 2, t.reg 3)) = some (2, 5, 4, 0) := by decide

/-! ## Display, timers and key wait (2.5) -/

/-- DT1: a lit pixel goes out, VF stays. -/
theorem test_cls :
    after 0x00E0 { withRegs [(15, 7)] with fb := FrameBuffer.clear.toggle 3 4 } (fun t => (t.pixel 3 4, t.reg VF))
      = some (false, 7) := by decide
/-- DT2: a row that wraps at column 63. -/
theorem test_drw_wraps_columns :
    after 0xD011 (withBytes 0x300 [0xFF] (withRegs [(0, 62)] { State.reset with i := 0x300 }))
      (fun t => (t.reg VF, litColumns t 0)) = some (0, [0, 1, 2, 3, 4, 5, 62, 63]) := by decide
/-- DT3 and a collision, with bit 7 at the left (DT4's start column wraps). -/
theorem test_drw_wraps_rows :
    after 0xD012 (withBytes 0x300 [0x80, 0x80]
        { withRegs [(0, 67), (1, 31)] with i := 0x300, fb := FrameBuffer.clear.toggle 3 0 })
      (fun t => (t.reg VF, litColumns t 31, litColumns t 0)) = some (1, [3], []) := by decide
/-- DT7. -/
theorem test_ld_vx_dt : after 0xF107 { State.reset with dt := 0x3C } (fun t => (t.reg 1, t.dt)) = some (0x3C, 0x3C) := by decide
/-- W8's first step. -/
theorem test_ld_dt : after 0xF015 (withRegs [(0, 5)]) (fun t => (t.dt, t.st)) = some (5, 0) := by decide
/-- R193's example. -/
theorem test_ld_st : after 0xF218 (withRegs [(2, 0x10)]) (fun t => (t.st, t.soundActive)) = some (0x10, true) := by decide
/-- DT11. -/
theorem test_ld_k :
    after 0xF30A { State.reset with pc := 0x240 } (fun t => (t.run, t.pc, t.reg 3)) = some (.awaitingKey 3, 0x242, 0) := by
  decide

/-! ## The other agents -/

/-- DT13: a key press ends the wait. -/
theorem test_key_press :
    afterTurn (.key 7) { State.reset with run := .awaitingKey 3 } (fun t => (t.reg 3, t.run, t.pc))
      = some (7, .running, 0x200) := by decide
/-- DT10, DT12: both timers, and a timer at 0 stays there. -/
theorem test_tick :
    afterTurn .timer { State.reset with st := 3 } (fun t => (t.dt, t.st)) = some (0, 2) ∧
    afterTurn .timer { State.reset with dt := 2, run := .awaitingKey 3 } (fun t => (t.dt, t.run))
      = some (1, .awaitingKey 3) := by decide
/-- DT16, and a machine that stopped. -/
theorem test_no_tick_when_halted :
    step { State.reset with turns := [.timer], run := .stopped, dt := 5 } = .fault .stopped := by rfl
/-- DT15. -/
theorem test_stop : afterTurn .stop { State.reset with run := .awaitingKey 3 } (fun t => (t.run, t.reg 3)) = some (.stopped, 0) := by
  decide
/-- R253: a ROM is loaded at 0x200. -/
theorem test_boot :
    afterTurn (.reset [0x12, 0x00]) { State.reset with run := .stopped, pc := 7 }
      (fun t => (t.readByte 0x200, t.readByte 0x201, t.pc, t.run)) = some (0x12, 0x00, 0x200, .running) := by decide
/-- FD2. -/
theorem test_pc_out_of_range :
    afterTurn .engine { State.reset with pc := 0x0FFF } (·.faultRecord)
      = some (some { kind := .pcOutOfRange, pc := 0x0FFF, word := none, info := .none }) := by decide
/-- FD1, FD3: the highest word, and a word at an odd address. -/
theorem test_fetch_edges :
    afterTurn .engine (withBytes 0xFFE [0x60, 0x01] { State.reset with pc := 0xFFE }) (fun t => (t.reg 0, t.pc))
      = some (1, 0x1000) ∧
    afterTurn .engine (withBytes 0x201 [0x6A, 0x07] { State.reset with pc := 0x201 }) (fun t => (t.reg 10, t.pc))
      = some (7, 0x203) := by decide
/-- R217: the alternative policy, which is not the spec's value, advances PC and does nothing else. -/
theorem test_no_op_policy : State.reset.unsupportedUnder .noOp 0x0123 = State.reset.setPc 0x202 := by decide

/-- R226: the turns of a simulator with INSTR_PER_TICK = 2. -/
theorem test_fixed_rate : fixedRateTurns 2 2 = [.engine, .engine, .timer, .engine, .engine, .timer] := by decide

/-! ## Witnesses: every obligation's hypotheses are met together, each clause at a boundary of its range -/

/-- The states below run word `w` next, at the highest address a fetch can use. -/
def runs (w : Word) (s : State := .reset) : State := { s with pc := 0xFFE }.withFetchWord 16 w.toNat

/-- The word at PC of a state (the expression the obligations use). -/
def wordAt (s : State) : Word := wordOfBytes (s.readByte (s.pc.setWidth 12)) (s.readByte ((s.pc + 1).setWidth 12))

theorem witness_decode_of_encode : (Instr.sys 0x0EF).wellFormed = true ∧ (Instr.drw 15 15 15).wellFormed = true := by decide

theorem witness_encode_of_decode : decode 0xFF65 = .ok (.loadRegs 15) ∧ decode 0x0000 = .ok (.sys 0) := by decide

theorem witness_unsupported_words :
    decode 0x5001 = .error (.unsupported 0x5001) ∧ decode 0x9FFF = .error (.unsupported 0x9FFF) ∧
    decode 0x8008 = .error (.unsupported 0x8008) ∧ decode 0xE09F = .error (.unsupported 0xE09F) ∧
    decode 0xF066 = .error (.unsupported 0xF066) := by decide

theorem witness_step_runs_decoded_instruction :
    ∃ (s : State) (i : Instr), s.nextTurn = .engine ∧ s.run = .running ∧ s.pc.toNat = 0x0FFE ∧
      decode (wordAt s) = .ok i ∧ i ≠ .sys 0 :=
  ⟨runs 0x6A2F, .ldImm 10 0x2F, by decide⟩

theorem witness_placed_word_is_run_next :
    ∃ (s : State) (w : Nat) (i : Instr), s.mem.wf ∧ decodeTableWord 16 w = some i ∧ s.pc.toNat = 0x0FFE :=
  ⟨{ State.reset with pc := 0xFFE }, 0xF355, .storeRegs 3, by decide⟩

theorem witness_placed_word_elsewhere :
    ∃ (s : State) (w : Nat) (i : Instr), s.mem.wf ∧ decodeTableWord 16 w = some i ∧ s.pc.toNat = 0x0FFF :=
  ⟨{ State.reset with pc := 0xFFF }, 0xF355, .storeRegs 3, by decide⟩

theorem witness_fetch_out_of_range :
    ∃ s : State, s.nextTurn = .engine ∧ s.run = .running ∧ s.pc.toNat = 0x0FFF :=
  ⟨{ State.reset with pc := 0xFFF }, by decide⟩

theorem witness_unsupported_word_halts :
    ∃ s : State, s.nextTurn = .engine ∧ s.run = .running ∧ s.pc.toNat ≤ 0x0FFE ∧
      decode (wordAt s) = .error (.unsupported (wordAt s)) :=
  ⟨runs 0x5121, by decide⟩

theorem witness_sys_word_halts :
    ∃ (s : State) (nnn : Addr), s.nextTurn = .engine ∧ s.run = .running ∧ s.pc.toNat ≤ 0x0FFE ∧
      decode (wordAt s) = .ok (.sys nnn) :=
  ⟨.reset, 0, by decide⟩

theorem witness_rom_fits :
    ∃ (rom : List Byte) (s : State), s.nextTurn = .reset rom ∧ rom.length = 0xE00 :=
  ⟨.replicate 0xE00 0x12, { State.reset with turns := [.reset (.replicate 0xE00 0x12)] }, rfl, List.length_replicate⟩

theorem witness_rom_too_large :
    ∃ (rom : List Byte) (s : State), s.nextTurn = .reset rom ∧ rom.length = 0xE01 :=
  ⟨.replicate 0xE01 0x12, { State.reset with turns := [.reset (.replicate 0xE01 0x12)] }, rfl, List.length_replicate⟩

theorem witness_host_reset :
    ∃ (rom : List Byte) (s : State), s.nextTurn = .reset rom ∧ rom.length ≤ 0xE00 ∧ s.run = .stopped :=
  ⟨[], { State.reset with turns := [.reset []], run := .stopped }, by decide⟩

theorem witness_call :
    ∃ s t u : State, s.sp.val = (0 : Fin 16).val ∧ t.sp.val = (15 : Fin 16).val ∧ u.sp.val = 16 :=
  ⟨.reset, { State.reset with sp := 15 }, { State.reset with sp := 16 }, by decide⟩

theorem witness_ret :
    ∃ s t u : State, s.sp.val = (0 : Fin 16).val + 1 ∧ t.sp.val = (15 : Fin 16).val + 1 ∧ u.sp.val = 0 :=
  ⟨{ State.reset with sp := 1 }, { State.reset with sp := 16 }, .reset, by decide⟩

theorem witness_nested_calls :
    ∃ (s : State) (_first : Addr) (rest : List Addr), s.sp.val + (rest.length + 1) = 16 ∧ rest ≠ [] :=
  ⟨{ State.reset with sp := 14 }, 0x300, [0x400], by decide⟩

theorem witness_seventeenth_call :
    ∃ (s : State) (targets : List Addr), s.sp = 0 ∧ s.run = .running ∧ targets.length = 16 :=
  ⟨.reset, .replicate 16 0x200, by decide⟩

theorem witness_skips :
    ∃ s : State, s.reg 1 = 0x7F ∧ s.reg 1 ≠ 0x80 ∧ s.reg 1 = s.reg 2 ∧ s.reg 1 ≠ s.reg 3 :=
  ⟨withRegs [(1, 0x7F), (2, 0x7F)], by decide⟩

theorem witness_key_skip :
    ∃ (x : Reg) (s : State) (a : Bool) (rest : List Bool), (s.reg x).toNat = 0x0F ∧ s.keyAnswers = a :: rest :=
  ⟨5, { withRegs [(5, 0x0F)] with keyAnswers := [true] }, true, [], by decide⟩

theorem witness_key_skip_invalid : ∃ (x : Reg) (s : State), (s.reg x).toNat = 0x10 := ⟨5, withRegs [(5, 0x10)], by decide⟩

theorem witness_random_byte :
    ∃ (s : State) (a : Byte) (rest : List Byte), s.randomBytes = a :: rest :=
  ⟨{ State.reset with randomBytes := [0xB7] }, 0xB7, [], by decide⟩

/-- The clauses on `x ≠ VF`, and the destination VF that they leave to the flag. -/
theorem witness_flag_destinations : ∃ x y : Reg, x ≠ VF ∧ y = VF := ⟨14, 15, by decide⟩

theorem witness_glyph : ∃ (x : Reg) (s : State), (s.reg x).toNat = 15 := ⟨10, withRegs [(10, 15)], by decide⟩

theorem witness_bcd_store :
    ∃ s : State, s.mem.wf ∧ (∀ k < 3, 0x04F < (ea s.i k).toNat) ∧ (ea s.i 2).toNat = 0x0FFF :=
  ⟨{ State.reset with i := 0x0FFD }, by decide⟩

theorem witness_register_store :
    ∃ (x : Reg) (s : State), s.mem.wf ∧ (∀ r : Reg, r ≤ x → 0x04F < (ea s.i r.val).toNat) ∧ x = 15 ∧
      (ea s.i 0).toNat = 0x050 :=
  ⟨15, { State.reset with i := 0x0050 }, by decide⟩

theorem witness_font_store :
    ∃ (x : Reg) (s : State) (k : Nat), (ea s.i k).toNat ≤ 0x04F ∧ (∀ j < k, 0x04F < (ea s.i j).toNat) ∧ k < 3 ∧ k = x.val :=
  ⟨2, { State.reset with i := 0x0FFE }, 2, by decide⟩

theorem witness_font_store_at_its_end :
    ∃ (x : Reg) (s : State), (ea s.i 0).toNat = 0x04F ∧ (∀ j < 0, 0x04F < (ea s.i j).toNat) ∧ 0 ≤ x.val :=
  ⟨0, { State.reset with i := 0x004F }, by decide⟩

theorem witness_load_registers : ∃ x r q : Reg, r ≤ x ∧ x < q := ⟨3, 3, 4, by decide⟩

theorem witness_store_then_load :
    ∃ (x : Reg) (s t u : State), s.mem.wf ∧ (∀ r : Reg, r ≤ x → 0x04F < (ea s.i r.val).toNat) ∧
      exec (.storeRegs x) s = .next t ∧ u.i = t.i ∧ SameMemory t u ∧ u.reg 0 ≠ s.reg 0 :=
  ⟨3, withRegs [(0, 0x11), (3, 0x44)] { State.reset with i := 0x300 }, _, { State.reset with i := 0x300, mem := _ },
    by decide, by decide, rfl, rfl, fun _ => rfl, by decide⟩

/-- The reset state with the memory that `i` leaves at `s`, and a PC. -/
def withMemoryAfter (i : Instr) (s : State) (pc : Word) : State :=
  match exec i s with
  | .next t => { State.reset with pc := pc, mem := t.mem }
  | .fault _ => .reset
  | .refused _ => .reset

/-- V2 and V3 to be stored in the last two bytes of memory, with I above 0x0FFF. -/
def storesAtTheTop : State := withRegs [(2, 0x12), (3, 0x0E)] { State.reset with i := 0x1FFC }

/-- 255 to be stored as digits at 0x300, after a byte 0x61. -/
def storesDigits : State := withRegs [(4, 255)] (withBytes 0x2FF [0x61] { State.reset with i := 0x300 })

/-- Fx55 with I above 0x0FFF: V2 and V3, the last two bytes of memory, are the word of the fetch at 0xFFE. -/
theorem witness_stored_registers_are_fetched :
    ∃ (x : Reg) (s t u : State) (hi lo : Byte) (i : Instr), s.mem.wf ∧
      exec (.storeRegs x) s = .next t ∧ u.mem = t.mem ∧ u.run = .running ∧
      u.nextTurn = .engine ∧ u.pc.toNat = 0x0FFE ∧ decode (wordOfBytes hi lo) = .ok i ∧
      (∀ r : Reg, r ≤ x → 0x04F < (ea s.i r.val).toNat) ∧
      StoredOrOld s (x.val + 1) (fun k => s.reg (Fin.ofNat 16 k)) (u.pc.setWidth 12) hi ∧
      StoredOrOld s (x.val + 1) (fun k => s.reg (Fin.ofNat 16 k)) ((u.pc + 1).setWidth 12) lo :=
  ⟨3, storesAtTheTop, _, withMemoryAfter (.storeRegs 3) storesAtTheTop 0xFFE, 0x12, 0x0E, .jp 0x20E,
    by decide, rfl, rfl, rfl, rfl, rfl, by decide, by decide,
    by unfold StoredOrOld; decide, by unfold StoredOrOld; decide⟩

/-- Fx33: its first digit is the low byte of a word whose high byte was there before. -/
theorem witness_stored_digits_are_fetched :
    ∃ (x : Reg) (s t u : State) (hi lo : Byte) (i : Instr), s.mem.wf ∧
      exec (.ldB x) s = .next t ∧ u.mem = t.mem ∧ u.run = .running ∧
      u.nextTurn = .engine ∧ u.pc.toNat ≤ 0x0FFE ∧ decode (wordOfBytes hi lo) = .ok i ∧
      (∀ k < 3, 0x04F < (ea s.i k).toNat) ∧
      StoredOrOld s 3 (fun k => BitVec.ofNat 8 ((s.reg x).toNat / 10 ^ (2 - k) % 10)) (u.pc.setWidth 12) hi ∧
      StoredOrOld s 3 (fun k => BitVec.ofNat 8 ((s.reg x).toNat / 10 ^ (2 - k) % 10)) ((u.pc + 1).setWidth 12) lo :=
  ⟨4, storesDigits, _, withMemoryAfter (.ldB 4) storesDigits 0x2FF, 0x61, 2, .ldImm 1 2,
    by decide, rfl, rfl, rfl, rfl, by decide, by decide, by decide, by unfold StoredOrOld; decide, by unfold StoredOrOld; decide⟩

/-- Both VF clauses of a draw: a covered pixel that is set, and a display dark under the sprite; and a pixel outside. -/
theorem witness_draw :
    ∃ (x y : Reg) (n : Nibble) (s t : State),
      (SpriteCovers s x y n 0 0 ∧ s.pixel 0 0 = true) ∧ (∀ px py, SpriteCovers t x y n px py → t.pixel px py = false) ∧
      SpriteCovers t x y n 0 0 :=
  have covers : ∀ fb, SpriteCovers { State.reset with fb := fb } 0 1 1 0 0 :=
    fun _ => ⟨0, by decide, 0, by decide, (by decide : (Memory.read [] 0).getLsbD 7 = true), by rfl, by rfl⟩
  ⟨0, 1, 1, { State.reset with fb := FrameBuffer.clear.toggle 0 0 }, { State.reset with fb := FrameBuffer.clear },
    ⟨covers _, by decide⟩, fun px py _ => FrameBuffer.pixel_clear px py, covers _⟩

theorem witness_draw_misses : ∃ (s : State) (px : Column) (py : Row), ¬ SpriteCovers s 0 1 0 px py :=
  ⟨.reset, 0, 0, fun ⟨r, h, _⟩ => absurd h (Nat.not_lt_zero r)⟩

/-- W9's state: glyph 0 on a dark display, drawn twice. -/
theorem witness_draw_twice :
    ∃ (x y : Reg) (n : Nibble) (s t u : State), exec (.drw x y n) s = .next t ∧ SameDisplay t u ∧
      u.reg x = s.reg x ∧ u.reg y = s.reg y ∧ u.i = s.i ∧ SameMemory s u ∧ (∀ px py, s.pixel px py = false) ∧
      ∃ r < n.toNat, s.readByte (ea s.i r) ≠ 0 :=
  ⟨0, 1, 5, .reset, _, _, rfl, fun _ _ => rfl, rfl, rfl, rfl, fun _ => rfl,
    fun px py => FrameBuffer.pixel_clear px py, 0, by decide, by decide⟩

/-- The clause of a second draw that reports no collision: the only covered pixel was set. -/
theorem witness_draw_twice_over_lit_pixels :
    ∃ s : State, SpriteCovers s 0 1 1 0 0 ∧ ∀ px py, SpriteCovers s 0 1 1 px py → s.pixel px py = true :=
  ⟨{ State.reset with fb := .replicate 32 (.replicate 64 true) },
    ⟨0, by decide, 0, by decide, (by decide : (Memory.read [] 0).getLsbD 7 = true), by rfl, by rfl⟩,
    fun px py _ => by simp [State.pixel, FrameBuffer.pixel]⟩

theorem witness_key_press :
    ∃ (x : Reg) (k : Key) (s t u : State), (s.nextTurn = .key k ∧ s.run = .awaitingKey x) ∧
      (t.nextTurn = .key k ∧ t.run = .running) ∧ (u.nextTurn = .engine ∧ u.run = .awaitingKey x) :=
  ⟨15, 15, { State.reset with turns := [.key 15], run := .awaitingKey 15 }, { State.reset with turns := [.key 15] },
    { State.reset with run := .awaitingKey 15 }, by decide⟩

/-- A record to halt with. -/
def someRecord : FaultRecord := { kind := .stackUnderflow, pc := 0x200, word := some 0x00EE, info := .none }

theorem witness_tick :
    ∃ s t u v : State, (s.nextTurn = .timer ∧ s.run = .running ∧ s.dt = 0) ∧
      (t.nextTurn = .timer ∧ (∃ x, t.run = .awaitingKey x) ∧ t.dt = 0xFF) ∧
      (u.nextTurn = .timer ∧ ∃ f, u.run = .halted f) ∧ (v.nextTurn = .timer ∧ v.run = .stopped) :=
  ⟨{ State.reset with turns := [.timer] }, { State.reset with turns := [.timer], run := .awaitingKey 3, dt := 0xFF },
    { State.reset with turns := [.timer], run := .halted someRecord },
    { State.reset with turns := [.timer], run := .stopped },
    ⟨rfl, rfl, rfl⟩, ⟨rfl, ⟨3, rfl⟩, rfl⟩, ⟨rfl, _, rfl⟩, rfl, rfl⟩

theorem witness_stop :
    ∃ s t : State, (s.nextTurn = .stop ∧ s.run = .running) ∧ t.nextTurn = .stop ∧ ∃ x, t.run = .awaitingKey x :=
  ⟨{ State.reset with turns := [.stop] }, { State.reset with turns := [.stop], run := .awaitingKey 3 },
    ⟨rfl, rfl⟩, rfl, 3, rfl⟩

theorem witness_terminal :
    ∃ s t : State, ((∀ rom, s.nextTurn ≠ .reset rom) ∧ ∃ f, s.run = .halted f) ∧
      (∀ rom, t.nextTurn ≠ .reset rom) ∧ t.run = .stopped :=
  ⟨{ State.reset with run := .halted someRecord }, { State.reset with turns := [.key 3], run := .stopped },
    ⟨fun _ h => Turn.noConfusion h, _, rfl⟩, fun _ h => Turn.noConfusion h, rfl⟩

/-- A fault of a step; each of the five clauses of the causes is met by a test above or below (its kind is named). -/
theorem witness_fault :
    ∃ (s t : State) (f : FaultRecord), s.run = .running ∧ step s = .next t ∧ t.run = .halted f ∧ f.kind = .stackUnderflow :=
  ⟨{ runs 0x00EE with dt := 7 }, _, _, rfl, rfl, rfl, rfl⟩

theorem witness_fault_clauses :
    [faultOf <$> after 0x0123 .reset id, faultOf <$> after 0x2400 { State.reset with sp := 16 } id,
      faultOf <$> after 0x00EE .reset id, faultOf <$> after 0xF033 .reset id, faultOf <$> after 0xF055 .reset id,
      faultOf <$> after 0xE59E (withRegs [(5, 0x10)]) id, faultOf <$> after 0xE5A1 (withRegs [(5, 0xFF)]) id]
    = [some (some (.unsupportedOpcode, .none)), some (some (.stackOverflow, .none)), some (some (.stackUnderflow, .none)),
      some (some (.fontWrite, .address 0)), some (some (.fontWrite, .address 0)), some (some (.invalidKey, .key 0x10)),
      some (some (.invalidKey, .key 0xFF))] := by decide

/-- An instruction that the fault table does not name: all seven exclusions hold of it. -/
theorem witness_cannot_fault :
    ∃ i : Instr, i ≠ .ret ∧ (∀ nnn, i ≠ .sys nnn) ∧ (∀ nnn, i ≠ .call nnn) ∧ (∀ x, i ≠ .ldB x) ∧
      (∀ x, i ≠ .storeRegs x) ∧ (∀ x, i ≠ .skp x) ∧ ∀ x, i ≠ .sknp x :=
  ⟨.ldK 3, by simp⟩

theorem witness_pc_advance :
    ∃ (i : Instr) (s t : State), (∀ f, s.run ≠ .halted f) ∧ exec i s = .next t ∧ ∀ f, t.run ≠ .halted f :=
  ⟨.addI 3, .reset, _, fun _ h => Run.noConfusion h, rfl, fun _ h => Run.noConfusion h⟩

theorem witness_pc_stays_at_a_fault :
    ∃ (i : Instr) (s t : State), (∀ f, s.run ≠ .halted f) ∧ exec i s = .next t ∧ ∃ f, t.run = .halted f :=
  ⟨.ret, .reset, _, fun _ h => Run.noConfusion h, rfl, _, rfl⟩

theorem witness_writers : ∃ (i : Instr) (s t : State), exec i s = .next t := ⟨.cls, .reset, _, rfl⟩

theorem witness_timers :
    ∃ s t : State, step s = .next t ∧ (∀ rom, s.nextTurn ≠ .reset rom) ∧ s.dt ≠ t.dt :=
  ⟨{ State.reset with turns := [.timer], dt := 1 }, _, rfl, fun _ h => Turn.noConfusion h, by decide⟩

/-- Each of the three steps that change the sound output: a tick, Fx18, a reset. -/
theorem witness_sound_calls :
    (∃ s t : State, step s = .next t ∧ setActiveCall s t = some false ∧ s.nextTurn = .timer) ∧
    (∃ s t : State, step s = .next t ∧ setActiveCall s t = some true ∧ decode (wordAt s) = .ok (.ldST 2)) ∧
    ∃ s t : State, step s = .next t ∧ setActiveCall s t = some false ∧ s.nextTurn = .reset [] :=
  ⟨⟨{ State.reset with turns := [.timer], st := 1 }, _, rfl, by decide, rfl⟩,
    ⟨runs 0xF218 (withRegs [(2, 1)]), _, rfl, by decide, by decide⟩,
    ⟨{ State.reset with turns := [.reset []], st := 1 }, _, rfl, by decide, rfl⟩⟩

theorem witness_wait :
    ∃ (s : State) (x : Reg) (ts : List Turn), s.run = .awaitingKey x ∧ (∀ t ∈ ts, t = .engine ∨ t = .timer) ∧
      ts.count .timer = 2 :=
  ⟨{ State.reset with run := .awaitingKey 3 }, 3, [.timer, .engine, .timer], rfl, by decide, by decide⟩

/-- Engine and timer in turn. -/
theorem witness_fair_schedule :
    ∃ (σ : Nat → Turn) (s : State) (x : Reg), FairSchedule σ ∧ (∀ n, σ n = .engine ∨ σ n = .timer) ∧
      s.run = .awaitingKey x ∧ s.dt = 0xFF := by
  refine ⟨fun n => if n % 2 = 0 then .engine else .timer, { State.reset with run := .awaitingKey 3, dt := 0xFF }, 3,
    ⟨fun n => ⟨2 * n, by omega, if_pos (by omega)⟩, fun n => ⟨2 * n + 1, by omega, if_neg (by omega)⟩⟩, fun n => ?_,
    rfl, rfl⟩
  by_cases h : n % 2 = 0
  · exact .inl (if_pos h)
  · exact .inr (if_neg h)

theorem witness_canonical_memory :
    ∃ m m' : Memory, m.wf ∧ m'.wf ∧ (∀ a : Addr, m.read a.toNat = m'.read a.toNat) ∧ m ≠ [] :=
  ⟨Memory.write [] 0x300 5, _, by decide, by decide, fun _ => rfl, by decide⟩

theorem witness_invariant : ∃ s t : State, s.Inv ∧ step s = .next t :=
  ⟨.reset, _, ⟨Memory.reset_wf, fun a h => by rw [Memory.read_reset, resetByte, if_pos h], by decide,
    fun j => by simp [State.reset], fun _ h => nomatch h⟩, rfl⟩

end Sys2Proof.Tests
end

section
/-! PROOFS. The program counter of every instruction (R25, R212). -/

namespace Sys2Proof.Machine

/-! ## An execution from `s` to `t` either raises a fault at PC = p or completes -/

/-- `t` comes of one execution in `s`: if it raised a fault, PC still is the instruction's own address (R212); if it
completed, PC meets `target`, the instruction's line of R25. -/
def PcSettled (s t : State) (target : Prop) : Prop :=
  ((∃ f, t.run = .halted f) → t.pc = s.pc) ∧ ((∀ f, t.run ≠ .halted f) → target)

theorem PcSettled.of_fault {s t : State} {target : Prop} {f : FaultRecord} (run : t.run = .halted f)
    (pc : t.pc = s.pc) : PcSettled s t target :=
  ⟨fun _ => pc, fun h => absurd run (h f)⟩

theorem PcSettled.of_notHalted {s t : State} {target : Prop} (run : ∀ f, t.run ≠ .halted f) (pc : target) :
    PcSettled s t target :=
  ⟨fun ⟨f, h⟩ => absurd h (run f), fun _ => pc⟩

section
variable {s : State} (hs : ∀ f, s.run ≠ .halted f)
include hs

theorem PcSettled.of_sameRun {t : State} {target : Prop} (run : t.run = s.run) (pc : target) :
    PcSettled s t target :=
  .of_notHalted (fun f => run ▸ hs f) pc

/-- Effects `u` that touch neither PC nor the run state, then the advance of R25. -/
theorem pcSettled_advance {t u : State} (h : Host.Outcome.next u.advance = (.next t : Host.Outcome State Fault Refusal))
    (pc : u.pc = s.pc) (run : u.run = s.run) : PcSettled s t (t.pc = s.pc + 2) := by
  cases h
  exact .of_sameRun hs run (by simp [pc])

/-- Checked writes advance, or raise FontWrite (R56). -/
theorem pcSettled_storeAll (i : Instr) (ws : List (Addr × Byte)) :
    PcSettled s (storeAll i ws s) ((storeAll i ws s).pc = s.pc + 2) := by
  unfold storeAll
  rcases s.writeChecked_cases ws with ⟨-, h⟩ | ⟨w, -, -, h⟩ <;> rw [h]
  · exact .of_sameRun hs rfl rfl
  · exact .of_fault rfl rfl

theorem pcSettled_ret {t : State} (h : exec .ret s = .next t) :
    PcSettled s t (∀ j : Fin 16, s.sp.val = j.val + 1 → t.pc = s.stack[j.val]) := by
  simp only [exec, execRet] at h
  rcases s.pop_cases with ⟨_, hpop⟩ | ⟨-, hpop⟩
  · rw [hpop] at h
    cases h
    exact .of_sameRun hs rfl fun j hj => by simp [hj]
  · rw [hpop] at h
    cases h
    exact .of_fault rfl rfl

theorem pcSettled_call {t : State} {nnn : Addr} (h : exec (.call nnn) s = .next t) :
    PcSettled s t (t.pc = nnn.setWidth 16) := by
  simp only [exec, execCall] at h
  rcases s.push_cases (s.pc + 2) with ⟨_, u, hpush, rfl⟩ | ⟨-, hpush⟩
  · rw [hpush] at h
    cases h
    exact .of_sameRun hs rfl rfl
  · rw [hpush] at h
    cases h
    exact .of_fault rfl rfl

end

/-! ## The key skips -/

/-- A byte is the number of exactly one key, or it is above 0x0F and of none (R127). -/
theorem keyOf_cases (b : Byte) :
    (∃ k, keyOf b = some k ∧ ∀ k' : Key, b.toNat = k'.val → k' = k) ∨ (0x0F < b.toNat ∧ keyOf b = none) := by
  by_cases h : b.toNat < 16
  · exact .inl ⟨_, keyOf_eq_some b h, fun k' hk' => Fin.ext hk'.symm⟩
  · exact .inr ⟨by omega, keyOf_eq_none b (by omega)⟩

section
variable {s t : State} {x : Reg} (hs : ∀ f, s.run ≠ .halted f)
include hs

theorem pcSettled_skp (h : exec (.skp x) s = .next t) :
    PcSettled s t (∀ k : Key, (s.reg x).toNat = k.val →
      t.pc = if s.keyPressed k = true then s.pc + 4 else s.pc + 2) := by
  simp only [exec, execSkp] at h
  rcases keyOf_cases (s.reg x) with ⟨k, hkey, hk⟩ | ⟨-, hkey⟩
  · rw [hkey] at h
    cases h
    exact .of_sameRun hs rfl fun k' hk' => by simp [hk k' hk']
  · rw [hkey] at h
    cases h
    exact .of_fault rfl rfl

theorem pcSettled_sknp (h : exec (.sknp x) s = .next t) :
    PcSettled s t (∀ k : Key, (s.reg x).toNat = k.val →
      t.pc = if s.keyPressed k = false then s.pc + 4 else s.pc + 2) := by
  simp only [exec, execSknp] at h
  rcases keyOf_cases (s.reg x) with ⟨k, hkey, hk⟩ | ⟨-, hkey⟩
  · rw [hkey] at h
    cases h
    exact .of_sameRun hs rfl fun k' hk' => by simp [hk k' hk']
  · rw [hkey] at h
    cases h
    exact .of_fault rfl rfl

end

/-- Settles O52, by cases on the instruction: plain effects advance, Fx0A included; jumps, call, return and skips set
PC; and the seven instructions that can fault leave PC when they do. -/
theorem pcAdvanceOfEveryInstruction : Obligations.PcAdvanceOfEveryInstruction := by
  unfold Obligations.PcAdvanceOfEveryInstruction
  intro i s t hs h
  change PcSettled s t _
  cases i with
  | cls | ldImm | addImm | ldReg | orReg | andReg | xorReg | addReg | sub | shr | subn | shl | ldI | rnd | drw | ldVxDT
  | ldDT | ldST | addI | ldF => exact pcSettled_advance hs h rfl rfl
  | loadRegs x =>
    obtain ⟨v, hv⟩ := s.loadUpTo_eq x
    exact pcSettled_advance hs h (by rw [hv]) (by rw [hv])
  | ldK x =>
    cases h
    exact .of_notHalted nofun rfl
  | ldB x => cases h; exact pcSettled_storeAll hs _ _
  | storeRegs x => cases h; exact pcSettled_storeAll hs _ _
  | sys nnn => cases h; exact .of_fault rfl rfl
  | ret => exact pcSettled_ret hs h
  | call nnn => exact pcSettled_call hs h
  | jp | jpV0 => cases h; exact .of_sameRun hs rfl rfl
  | seImm | sneImm | seReg | sneReg => cases h; exact .of_sameRun hs rfl (by simp)
  | skp x => exact pcSettled_skp hs h
  | sknp x => exact pcSettled_sknp hs h

end Sys2Proof.Machine
end

section
/-! PROOFS. Control transfer: 1nnn, Bnnn, 2nnn, 00EE (spec/40_control_flow.md). -/

namespace Sys2Proof.Machine

/-! ## The jumps write PC and nothing else (R101, R103) -/

theorem sameButPc_setPc (s : State) (w : Word) : SameButPc s (s.setPc w) :=
  ⟨fun _ _ => rfl, ⟨rfl, ⟨rfl, fun _ => rfl⟩, ⟨rfl, rfl⟩, fun _ => rfl, rfl, fun _ _ => rfl⟩, rfl, rfl, rfl, rfl, rfl⟩

theorem zext16_toNat (nnn : Addr) : (zext16 nnn).toNat = nnn.toNat := by
  simp only [zext16, BitVec.toNat_setWidth]
  omega

/-- The unbounded sum is at most 0xFFF + 0xFF, so the 16-bit addition does not wrap (R103). -/
theorem offsetTarget_toNat (nnn : Addr) (b : Byte) : (offsetTarget nnn b).toNat = nnn.toNat + b.toNat := by
  simp only [offsetTarget, byteWord, BitVec.toNat_add, zext16_toNat, BitVec.toNat_setWidth]
  omega

/-- Settles O13: JP is one write of PC. -/
theorem jumpSetsPc : Obligations.JumpSetsPc := by
  unfold Obligations.JumpSetsPc
  exact fun nnn s => ⟨by simp [decode], s.setPc (zext16 nnn), rfl, zext16_toNat nnn, sameButPc_setPc s _⟩

/-- Settles O14: JP V0 is one write of PC, with a sum that does not wrap. -/
theorem jumpWithOffsetAddsV0 : Obligations.JumpWithOffsetAddsV0 := by
  unfold Obligations.JumpWithOffsetAddsV0
  exact fun nnn s =>
    ⟨by simp [decode], s.setPc (offsetTarget nnn (s.reg 0)), rfl, offsetTarget_toNat nnn _, sameButPc_setPc s _⟩

/-! ## Call and return, with the stack in range and out of it (R100, R102) -/

/-- Everything but PC, SP and the stack slots is as before. -/
def SameButStackPc (s t : State) : Prop :=
  SameRegsBut [] s t ∧ t.i = s.i ∧ SameTimers s t ∧ SameMemory s t ∧ t.run = s.run ∧ SameDisplay s t ∧ SameInputs s t

theorem sameButStackPc_update (s : State) (stack : Vector Word 16) (sp : Fin 17) (pc : Word) :
    SameButStackPc s { s with stack := stack, sp := sp, pc := pc } :=
  ⟨fun _ _ => rfl, rfl, ⟨rfl, rfl⟩, fun _ => rfl, rfl, fun _ _ => rfl, rfl, rfl, rfl, rfl, rfl⟩

/-- CALL with a free slot (R102). -/
theorem exec_call_of_lt (s : State) (nnn : Addr) (h : s.sp.val < 16) :
    exec (.call nnn) s = .next { s with
      stack := s.stack.set s.sp.val (s.pc + 2), sp := ⟨s.sp.val + 1, by omega⟩, pc := zext16 nnn } := by
  rcases s.push_cases (s.pc + 2) with ⟨_, _, hpush, rfl⟩ | ⟨hfull, -⟩
  · simp only [exec, execCall, hpush]
    rfl
  · omega

/-- CALL with all slots occupied (R102). -/
theorem exec_call_of_full (s : State) (nnn : Addr) (h : s.sp.val = 16) :
    exec (.call nnn) s = .next (s.raiseIn (.call nnn) .stackOverflow .none) := by
  rcases s.push_cases (s.pc + 2) with ⟨hlt, -⟩ | ⟨-, hpush⟩
  · omega
  · simp only [exec, execCall, hpush]

/-- RET with an occupied slot (R100). -/
theorem exec_ret_of_pos (s : State) (h : 0 < s.sp.val) :
    exec .ret s = .next { s with sp := ⟨s.sp.val - 1, by omega⟩, pc := s.stack[s.sp.val - 1] } := by
  rcases s.pop_cases with ⟨_, hpop⟩ | ⟨hempty, -⟩
  · simp only [exec, execRet, hpop]
    rfl
  · omega

/-- RET with no slot occupied (R100). -/
theorem exec_ret_of_empty (s : State) (h : s.sp.val = 0) :
    exec .ret s = .next (s.raiseIn .ret .stackUnderflow .none) := by
  rcases s.pop_cases with ⟨hpos, -⟩ | ⟨-, hpop⟩
  · omega
  · simp only [exec, execRet, hpop]

/-- Settles O15, by cases on whether the stack has a free slot. -/
theorem callPushesReturnAddress : Obligations.CallPushesReturnAddress := by
  unfold Obligations.CallPushesReturnAddress
  intro nnn s
  refine ⟨by simp [decode], fun j hj => ?_, fun hfull => ?_⟩
  · refine ⟨_, exec_call_of_lt s nnn (by omega), ?_, fun k hk => ?_, rfl, zext16_toNat nnn,
      sameButStackPc_update s _ _ _⟩
    · simp [hj]
    · have hne : s.sp.val ≠ k.val := fun e => hk (Fin.ext (e.symm.trans hj))
      simp [hne]
  · exact ⟨_, exec_call_of_full s nnn hfull, rfl, rfl, rfl⟩

/-- Settles O16, by cases on whether a slot is occupied. -/
theorem returnPopsPc : Obligations.ReturnPopsPc := by
  unfold Obligations.ReturnPopsPc
  intro s
  refine ⟨rfl, fun j hj => ?_, fun hempty => ?_⟩
  · refine ⟨_, exec_ret_of_pos s (by omega), ?_, ?_, fun _ => rfl, sameButStackPc_update s _ _ _⟩
    · simp [hj]
    · simp [hj]
  · exact ⟨_, exec_ret_of_empty s hempty, rfl, rfl, rfl⟩

end Sys2Proof.Machine
end

section
/-! PROOFS. The comparison skips: 3xkk, 4xkk, 5xy0, 9xy0 (spec/41_conditional_skip.md). -/

namespace Sys2Proof.Machine

/-- An instruction that is one skip on the test `c` writes PC only: p + 4 under any condition that makes the test true,
p + 2 under any that makes it false (R25, R126). -/
theorem exists_next_of_skipIf {i : Instr} {s : State} {c : Bool} {skips stays : Prop}
    (hexec : exec i s = .next (s.skipIf c)) (hskips : skips → c = true) (hstays : stays → c = false) :
    ∃ t, exec i s = .next t ∧ SameButPc s t ∧ (skips → t.pc = s.pc + 4) ∧ (stays → t.pc = s.pc + 2) :=
  ⟨s.skipIf c, hexec, sameButPc_setPc s _, fun h => by simp [hskips h], fun h => by simp [hstays h]⟩

/-- Settles O19: each of the four is one skip on the Boolean test of its comparison. -/
theorem skipsFollowComparisons : Obligations.SkipsFollowComparisons := by
  unfold Obligations.SkipsFollowComparisons
  intro x y kk s
  refine ⟨?seImm, ?sneImm, ?seReg, ?sneReg⟩
  case seImm | seReg => exact ⟨by simp [decode], exists_next_of_skipIf rfl beq_iff_eq.mpr beq_eq_false_iff_ne.mpr⟩
  case sneImm | sneReg => exact ⟨by simp [decode], exists_next_of_skipIf rfl bne_iff_ne.mpr bne_eq_false_iff_eq.mpr⟩

end Sys2Proof.Machine
end

section
/-! PROOFS. Register loads and ALU: 6xkk, 7xkk, 8xy0, 8xy4, 8xy6, 8xyE (spec/42_register_alu.md). -/

namespace Sys2Proof.Machine

/-! ## One register write, then the advance (R140, R141, R143) -/

theorem sameButRegsPc_update (s : State) (v : Vector Byte 16) (pc : Word) :
    SameButRegsPc s { s with v := v, pc := pc } :=
  ⟨⟨rfl, ⟨rfl, fun _ => rfl⟩, ⟨rfl, rfl⟩, fun _ => rfl, rfl, fun _ _ => rfl⟩, rfl, rfl, rfl, rfl, rfl⟩

theorem sameRegsBut_setReg (s : State) (x : Reg) (b : Byte) : SameRegsBut [x] s (s.setReg x b) :=
  fun _ hr => (s.reg_setReg _ _ _).trans (if_neg (List.ne_of_not_mem_cons hr))

/-- An instruction that is one write of V[x] and the advance leaves every other register, VF among them. -/
theorem exists_next_of_setReg {i : Instr} {s : State} {x : Reg} {b : Byte}
    (hexec : exec i s = .next (s.setReg x b).advance) :
    ∃ t, exec i s = .next t ∧ t.reg x = b ∧ SameRegsBut [x] s t ∧ t.pc = s.pc + 2 ∧ SameButRegsPc s t :=
  ⟨_, hexec, by simp, sameRegsBut_setReg s x b, rfl, sameButRegsPc_update s _ _⟩

/-- Settles O22: LD Vx, kk is one register write. -/
theorem loadImmediate : Obligations.LoadImmediate := by
  unfold Obligations.LoadImmediate
  exact fun x kk s => ⟨by simp [decode], exists_next_of_setReg rfl⟩

/-- Settles O23: ADD Vx, kk is one register write, of the sum of two bytes. -/
theorem addImmediateWrapsWithoutFlag : Obligations.AddImmediateWrapsWithoutFlag := by
  unfold Obligations.AddImmediateWrapsWithoutFlag
  intro x kk s
  obtain ⟨t, hexec, hreg, hframe⟩ := exists_next_of_setReg (i := .addImm x kk) (s := s) rfl
  exact ⟨by simp [decode], t, hexec, by rw [hreg, BitVec.toNat_add], hframe⟩

/-- Settles O24: LD Vx, Vy is one register write. -/
theorem registerCopy : Obligations.RegisterCopy := by
  unfold Obligations.RegisterCopy
  exact fun x y s => ⟨by simp [decode, decodeAlu], exists_next_of_setReg rfl⟩

/-! ## A result in V[x], then a flag in VF (R142, R148, R150, R152) -/

theorem sameRegsBut_aluFlag (f : Byte → Byte → Byte) (flag : Byte → Byte → Bool) (x y : Reg) (s : State) :
    SameRegsBut [x, VF] s (aluFlag f flag x y s) := by
  intro r hr
  obtain ⟨hx, hVF⟩ : r ≠ x ∧ r ≠ VF := by simpa using hr
  simp [aluFlag, hx, hVF]

/-- An instruction that is one `aluFlag`: VF, written last, holds the flag whatever x is, and V[x] holds the result
unless x = F. -/
theorem exists_next_of_aluFlag {i : Instr} {s : State} {x y : Reg} {f : Byte → Byte → Byte}
    {flag : Byte → Byte → Bool} {result bit : Nat} (hexec : exec i s = .next (aluFlag f flag x y s))
    (hresult : (f (s.reg x) (s.reg y)).toNat = result) (hflag : (flagByte (flag (s.reg x) (s.reg y))).toNat = bit) :
    ∃ t, exec i s = .next t ∧ (x ≠ VF → (t.reg x).toNat = result) ∧ (t.reg VF).toNat = bit ∧
      SameRegsBut [x, VF] s t ∧ t.pc = s.pc + 2 ∧ SameButRegsPc s t := by
  refine ⟨_, hexec, fun hx => ?_, ?_, sameRegsBut_aluFlag f flag x y s, rfl, sameButRegsPc_update s _ _⟩
  · simp [aluFlag, hx, hresult]
  · simp [aluFlag, hflag]

/-! ### The flags as numbers (R22) -/

theorem flagByte_toNat (c : Bool) : (flagByte c).toNat = c.toNat := by
  cases c <;> rfl

theorem flagByte_addCarry_toNat (a b : Byte) :
    (flagByte (addCarry a b)).toNat = if a.toNat + b.toNat > 255 then 1 else 0 := by
  rw [flagByte_toNat, addCarry]
  by_cases h : a.toNat + b.toNat > 255 <;> simp [h]

theorem flagByte_shiftedOutRight_toNat (a : Byte) : (flagByte (shiftedOutRight a)).toNat = a.toNat % 2 := by
  rw [flagByte_toNat, shiftedOutRight, BitVec.getLsbD, Nat.toNat_testBit, Nat.pow_zero, Nat.div_one]

/-- Bit 7 is the highest bit of a byte, so nothing is left of the quotient above it. -/
theorem flagByte_shiftedOutLeft_toNat (a : Byte) : (flagByte (shiftedOutLeft a)).toNat = a.toNat / 2 ^ 7 := by
  rw [flagByte_toNat, shiftedOutLeft, BitVec.getLsbD, Nat.toNat_testBit]
  have := a.isLt
  omega

/-- Settles O26: ADD Vx, Vy is one `aluFlag`, with the sum and the carry. -/
theorem addRegistersSetsCarry : Obligations.AddRegistersSetsCarry := by
  unfold Obligations.AddRegistersSetsCarry
  exact fun x y s => ⟨by simp [decode, decodeAlu],
    exists_next_of_aluFlag rfl (BitVec.toNat_add ..) (flagByte_addCarry_toNat ..)⟩

/-- Settles O28: each shift is one `aluFlag` on V[x] alone, with the shifted byte and the bit it loses. -/
theorem shiftsSetShiftedOutBit : Obligations.ShiftsSetShiftedOutBit := by
  unfold Obligations.ShiftsSetShiftedOutBit
  intro x y s
  refine ⟨by simp [decode, decodeAlu], by simp [decode, decodeAlu], ?shr, ?shl⟩
  case shr =>
    exact exists_next_of_aluFlag rfl (by rw [BitVec.toNat_ushiftRight, Nat.shiftRight_one])
      (flagByte_shiftedOutRight_toNat _)
  case shl =>
    exact exists_next_of_aluFlag rfl (by rw [BitVec.toNat_shiftLeft, Nat.shiftLeft_eq, Nat.pow_one])
      (flagByte_shiftedOutLeft_toNat _)

end Sys2Proof.Machine
end

section
/-! PROOFS. Loads of the address register: Annn (spec/43_index_and_memory.md). -/

namespace Sys2Proof.Machine

/-- Everything but the register file, I and PC is as before. -/
def SameButRegsIndexPc (s t : State) : Prop :=
  SameStack s t ∧ SameTimers s t ∧ SameMemory s t ∧ t.run = s.run ∧ SameDisplay s t ∧ SameInputs s t

theorem sameButRegsIndexPc_update (s : State) (v : Vector Byte 16) (i pc : Word) :
    SameButRegsIndexPc s { s with v := v, i := i, pc := pc } :=
  ⟨⟨rfl, fun _ => rfl⟩, ⟨rfl, rfl⟩, fun _ => rfl, rfl, fun _ _ => rfl, rfl, rfl, rfl, rfl, rfl⟩

/-- An instruction that is one write of I and the advance leaves every register of the file (R170, R172). -/
theorem exists_next_of_setI {i : Instr} {s : State} {w : Word} (hexec : exec i s = .next (s.setI w).advance) :
    ∃ t, exec i s = .next t ∧ t.i = w ∧ t.pc = s.pc + 2 ∧ SameRegsBut [] s t ∧ SameButRegsIndexPc s t :=
  ⟨_, hexec, rfl, rfl, fun _ _ => rfl, sameButRegsIndexPc_update s _ _ _⟩

/-- Settles O30: LD I, nnn is one write of I, of the address at 16 bits. -/
theorem loadIndex : Obligations.LoadIndex := by
  unfold Obligations.LoadIndex
  intro nnn s
  obtain ⟨t, hexec, hi, hframe⟩ := exists_next_of_setI (i := .ldI nnn) (s := s) rfl
  exact ⟨by simp [decode], t, hexec, by rw [hi, zext16_toNat], hframe⟩

end Sys2Proof.Machine
end

section
/-! PROOFS. The display clear and the timers: 00E0, Fx07, Fx15, Fx18 (spec/44_timers_display_keys.md). -/

namespace Sys2Proof.Machine

/-! ## The display clear (R190) -/

/-- Everything but the display and PC is as before. -/
def SameButDisplayPc (s t : State) : Prop :=
  SameRegsBut [] s t ∧ t.i = s.i ∧ SameStack s t ∧ SameTimers s t ∧ SameMemory s t ∧ t.run = s.run ∧ SameInputs s t

theorem sameButDisplayPc_update (s : State) (fb : FrameBuffer) (pc : Word) :
    SameButDisplayPc s { s with fb := fb, pc := pc } :=
  ⟨fun _ _ => rfl, rfl, ⟨rfl, fun _ => rfl⟩, ⟨rfl, rfl⟩, fun _ => rfl, rfl, rfl, rfl, rfl, rfl, rfl⟩

/-- Settles O39: CLS is one write of the display, of the buffer whose every pixel is off. -/
theorem clearScreenClearsEveryPixel : Obligations.ClearScreenClearsEveryPixel := by
  unfold Obligations.ClearScreenClearsEveryPixel
  exact fun s => ⟨rfl, (s.setFb FrameBuffer.clear).advance, rfl, FrameBuffer.pixel_clear, rfl,
    sameButDisplayPc_update s _ _⟩

/-! ## The timers (R191, R192, R193) -/

/-- Settles O42: LD Vx, DT is one register write, of DT. -/
theorem readDelayTimer : Obligations.ReadDelayTimer := by
  unfold Obligations.ReadDelayTimer
  exact fun x s => ⟨by simp [decode, decodeMisc], exists_next_of_setReg rfl⟩

/-- Everything but the timers and PC is as before. -/
def SameButTimersPc (s t : State) : Prop :=
  SameRegsBut [] s t ∧ t.i = s.i ∧ SameStack s t ∧ SameMemory s t ∧ t.run = s.run ∧ SameDisplay s t ∧ SameInputs s t

theorem sameButTimersPc_update (s : State) (dt st : Byte) (pc : Word) :
    SameButTimersPc s { s with dt := dt, st := st, pc := pc } :=
  ⟨fun _ _ => rfl, rfl, ⟨rfl, fun _ => rfl⟩, fun _ => rfl, rfl, fun _ _ => rfl, rfl, rfl, rfl, rfl, rfl⟩

/-- The sound is active exactly while ST is above 0 (R237). -/
theorem soundActive_iff (s : State) : s.soundActive = true ↔ 0 < s.st.toNat := decide_eq_true_iff

/-- Settles O43: each of the two is one write of its timer, and after Fx18 the sound is that of ST = V[x]. -/
theorem setTimers : Obligations.SetTimers := by
  unfold Obligations.SetTimers
  intro x s
  refine ⟨by simp [decode, decodeMisc], by simp [decode, decodeMisc], ?ldDT, ?ldST⟩
  case ldDT =>
    exact ⟨(s.setDT (s.reg x)).advance, rfl, rfl, rfl, rfl, sameButTimersPc_update s _ _ _⟩
  case ldST =>
    obtain ⟨hregs, hi, hstack, hmem, hrun, hdisplay, hinputs⟩ :=
      sameButTimersPc_update s s.dt (s.reg x) (s.pc + 2)
    exact ⟨(s.setST (s.reg x)).advance, rfl, rfl, rfl, rfl, hregs, hi, hstack, hmem, hrun, hdisplay, hinputs,
      soundActive_iff _⟩

end Sys2Proof.Machine
end

section
/-! PROOFS. Decoder and encoder are inverse, and the words that decode to nothing (spec/30_encoding.md). -/

namespace Sys2Proof

/-! ## Decode of encode (R75, R76) -/

/-- The group 0___ gives back the operand of SYS where the word is neither that of CLS nor that of RET (R76). -/
theorem decodeZero_wordNnn {nnn : Addr} (hcls : nnn ≠ 0x0E0#12) (hret : nnn ≠ 0x0EE#12) :
    decodeZero (wordNnn 0x0#4 nnn) = .sys nnn := by
  have word_ne {m : Addr} (h : nnn ≠ m) : wordNnn 0x0#4 nnn ≠ wordNnn 0x0#4 m := fun e =>
    h (by simpa using congrArg nnnField e)
  have hcls' : wordNnn 0x0#4 nnn ≠ 0x00E0#16 := word_ne hcls
  have hret' : wordNnn 0x0#4 nnn ≠ 0x00EE#16 := word_ne hret
  rw [decodeZero, if_neg hcls', if_neg hret', nnnField_wordNnn]

/-- Settles O1, by cases on the instruction: each field that the decoder reads is the one that the encoder wrote; only
SYS has operands whose word is another instruction's. -/
theorem decodeOfEncodeIsIdentity : Obligations.DecodeOfEncodeIsIdentity := by
  unfold Obligations.DecodeOfEncodeIsIdentity
  intro i hwf
  cases i with
  | cls | ret => rfl
  | sys nnn =>
    obtain ⟨hcls, hret⟩ : nnn ≠ 0x0E0#12 ∧ nnn ≠ 0x0EE#12 := by simpa [Instr.wellFormed] using hwf
    simp [encode, decode, decodeZero_wordNnn hcls hret]
  | jp | call | seImm | sneImm | seReg | ldImm | addImm | sneReg | ldI | jpV0 | rnd | drw => simp [encode, decode]
  | ldReg | orReg | andReg | xorReg | addReg | sub | shr | subn | shl => simp [encode, decode, decodeAlu]
  | skp | sknp => simp [encode, decode, decodeKeys]
  | ldVxDT | ldK | ldDT | ldST | addI | ldF | ldB | storeRegs | loadRegs => simp [encode, decode, decodeMisc]

/-! ## Encode of decode (R72, R75) -/

/-- `i` is well-formed and its word is `w`. -/
def IsWordOf (w : Word) (i : Instr) : Prop := encode i = w ∧ i.wellFormed = true

theorem isWordOf_decodeZero {w : Word} (hop : opField w = 0x0#4) : IsWordOf w (decodeZero w) := by
  have hw : wordNnn 0x0#4 (nnnField w) = w := hop ▸ wordNnn_fields w
  unfold decodeZero
  split
  · next hcls => exact ⟨hcls.symm, rfl⟩
  · split
    · next hret => exact ⟨hret.symm, rfl⟩
    · next hcls hret =>
      have hcls' : nnnField w ≠ 0x0E0#12 := fun e => hcls (by rw [← hw, e]; rfl)
      have hret' : nnnField w ≠ 0x0EE#12 := fun e => hret (by rw [← hw, e]; rfl)
      exact ⟨hw, by simp [Instr.wellFormed, hcls', hret']⟩

theorem isWordOf_decodeAlu {w : Word} {i : Instr} (hop : opField w = 0x8#4) (h : decodeAlu w = .ok i) :
    IsWordOf w i := by
  have hw {n : Nibble} (hn : nField w = n) : wordXyn 0x8#4 (xField w) (yField w) n = w :=
    hop ▸ hn ▸ wordXyn_fields w
  unfold decodeAlu at h
  split at h <;> cases h <;> exact ⟨hw ‹_›, rfl⟩

theorem isWordOf_decodeKeys {w : Word} {i : Instr} (hop : opField w = 0xE#4) (h : decodeKeys w = .ok i) :
    IsWordOf w i := by
  have hw {kk : Byte} (hkk : kkField w = kk) : wordXkk 0xE#4 (xField w) kk = w := hop ▸ hkk ▸ wordXkk_fields w
  unfold decodeKeys at h
  split at h <;> cases h <;> exact ⟨hw ‹_›, rfl⟩

theorem isWordOf_decodeMisc {w : Word} {i : Instr} (hop : opField w = 0xF#4) (h : decodeMisc w = .ok i) :
    IsWordOf w i := by
  have hw {kk : Byte} (hkk : kkField w = kk) : wordXkk 0xF#4 (xField w) kk = w := hop ▸ hkk ▸ wordXkk_fields w
  unfold decodeMisc at h
  split at h <;> cases h <;> exact ⟨hw ‹_›, rfl⟩

/-- Settles O2, by cases on the opcode family: a word is the fields its family reads, put together again. -/
theorem encodeOfDecodeIsIdentity : Obligations.EncodeOfDecodeIsIdentity := by
  unfold Obligations.EncodeOfDecodeIsIdentity
  intro w i h
  change IsWordOf w i
  have nnn {op : Nibble} (hop : opField w = op) : wordNnn op (nnnField w) = w := hop ▸ wordNnn_fields w
  have xkk {op : Nibble} (hop : opField w = op) : wordXkk op (xField w) (kkField w) = w := hop ▸ wordXkk_fields w
  have xyn {op n : Nibble} (hop : opField w = op) (hn : nField w = n) : wordXyn op (xField w) (yField w) n = w :=
    hop ▸ hn ▸ wordXyn_fields w
  unfold decode at h
  split at h
  case h_1 hop => cases h; exact isWordOf_decodeZero hop
  case h_2 hop | h_3 hop | h_11 hop | h_12 hop => cases h; exact ⟨nnn hop, rfl⟩
  case h_4 hop | h_5 hop | h_7 hop | h_8 hop | h_13 hop => cases h; exact ⟨xkk hop, rfl⟩
  case h_6 hop | h_10 hop =>
    split at h
    · next hn => cases h; exact ⟨xyn hop hn, rfl⟩
    · cases h
  case h_14 hop => cases h; exact ⟨xyn hop rfl, rfl⟩
  case h_9 hop => exact isWordOf_decodeAlu hop h
  case h_15 hop => exact isWordOf_decodeKeys hop h
  case h_16 hop => exact isWordOf_decodeMisc hop h
  case h_17 => cases h

/-! ## The words that decode to nothing (R77) -/

/-- A word that decodes to nothing decodes to Unsupported, with itself. -/
theorem decode_error_eq {w : Word} {e : DecodeError} (h : decode w = .error e) : e = .unsupported w := by
  unfold decode at h
  split at h
  case h_6 | h_10 =>
    split at h <;> cases h
    rfl
  case h_9 =>
    unfold decodeAlu at h
    split at h <;> cases h
    rfl
  case h_15 =>
    unfold decodeKeys at h
    split at h <;> cases h
    rfl
  case h_16 =>
    unfold decodeMisc at h
    split at h <;> cases h
    rfl
  all_goals cases h
  rfl

theorem mem_nibbles (n : Nibble) :
    n ∈ [0x0#4, 0x1#4, 0x2#4, 0x3#4, 0x4#4, 0x5#4, 0x6#4, 0x7#4, 0x8#4, 0x9#4, 0xA#4, 0xB#4, 0xC#4, 0xD#4, 0xE#4,
      0xF#4] := by decide +revert

theorem decodeAlu_eq_error_iff (w : Word) :
    decodeAlu w = .error (.unsupported w) ↔ nField w ∈ [0x8#4, 0x9#4, 0xA#4, 0xB#4, 0xC#4, 0xD#4, 0xF#4] := by
  have := mem_nibbles (nField w)
  unfold decodeAlu
  split <;> simp_all

theorem decodeKeys_eq_error_iff (w : Word) :
    decodeKeys w = .error (.unsupported w) ↔ kkField w ∉ [0x9E#8, 0xA1#8] := by
  unfold decodeKeys
  split <;> simp_all

theorem decodeMisc_eq_error_iff (w : Word) :
    decodeMisc w = .error (.unsupported w) ↔
      kkField w ∉ [0x07#8, 0x0A#8, 0x15#8, 0x18#8, 0x1E#8, 0x29#8, 0x33#8, 0x55#8, 0x65#8] := by
  unfold decodeMisc
  split <;> simp_all

/-- Settles O3, by cases on the opcode family: three have a map of their own, two check `n`, and every word of the
others is an instruction's; there is no seventeenth. -/
theorem unsupportedWordsAreTheReservedOnes : Obligations.UnsupportedWordsAreTheReservedOnes := by
  unfold Obligations.UnsupportedWordsAreTheReservedOnes
  intro w
  change _ ↔ ((opField w = 0x5 ∨ opField w = 0x9) ∧ nField w ≠ 0x0) ∨
    (opField w = 0x8 ∧ nField w ∈ _) ∨ (opField w = 0xE ∧ kkField w ∉ _) ∨ (opField w = 0xF ∧ kkField w ∉ _)
  rw [← decodeAlu_eq_error_iff, ← decodeKeys_eq_error_iff, ← decodeMisc_eq_error_iff]
  unfold decode
  split
  case h_17 =>
    have := mem_nibbles (opField w)
    simp_all
  all_goals next hop => simp [hop]

/-- Settles O4: fifteen fixed words, evaluated by the decoder. -/
theorem sampleWordsDecode : Obligations.SampleWordsDecode := by
  unfold Obligations.SampleWordsDecode
  decide

end Sys2Proof
end

section
/-! PROOFS. The step of each agent (spec/00_scope.md R14, spec/60_exceptions.md). -/

namespace Sys2Proof.Machine

/-! ## Turns in the live run states -/

/-- While the engine runs, its turn is one cycle (R73). -/
theorem step_of_engine {s : State} (turn : s.nextTurn = .engine) (run : s.run = .running) :
    step s = cycle s.popTurn := by
  simp [step, takeTurn, whenLive, turn, run]

/-- While the machine waits for a key, the engine's turn is taken without effect (R198). -/
theorem step_of_engine_awaiting {s : State} {x : Reg} (turn : s.nextTurn = .engine) (run : s.run = .awaitingKey x) :
    step s = .next s.popTurn := by
  simp [step, takeTurn, whenLive, turn, run]

/-- The agents other than the engine and the keyboard do the same in both live run states. -/
theorem whenLive_of_live {s : State} {o : Host.Outcome State Fault Refusal}
    (live : s.run = .running ∨ ∃ x, s.run = .awaitingKey x) : whenLive s o (fun _ => o) = o := by
  rcases live with run | ⟨x, run⟩ <;> simp [whenLive, run]

theorem step_of_timer {s : State} (turn : s.nextTurn = .timer)
    (live : s.run = .running ∨ ∃ x, s.run = .awaitingKey x) : step s = .next (tick s.popTurn) := by
  rw [step, turn, takeTurn, whenLive_of_live (s := s.popTurn) live]

theorem step_of_reset {s : State} {rom : List Byte} (turn : s.nextTurn = .reset rom) :
    step s = boot rom s.popTurn := by
  rw [step, turn, takeTurn]

/-! ## One cycle of the engine (R73, R74, R78) -/

theorem cycle_of_ok {s : State} {i : Instr} (pc : s.pc.toNat ≤ 0x0FFE) (dec : decode s.fetchWord = .ok i) :
    cycle s = exec i s := by
  rw [cycle, if_pos ((fetchable_iff _).mpr pc), dec]

theorem cycle_of_error {s : State} {e : DecodeError} (pc : s.pc.toNat ≤ 0x0FFE)
    (dec : decode s.fetchWord = .error e) : cycle s = .next (s.unsupported s.fetchWord) := by
  rw [cycle, if_pos ((fetchable_iff _).mpr pc), dec]

theorem cycle_of_outOfRange {s : State} (pc : 0x0FFE < s.pc.toNat) :
    cycle s = .next (s.raiseFault .pcOutOfRange none .none) := by
  rw [cycle, if_neg fun h => absurd ((fetchable_iff _).mp h) (by omega)]

/-- Settles O5: the engine's turn in Running is a cycle, and the cycle is `exec` of the decoded word. -/
theorem stepRunsDecodedInstruction : Obligations.StepRunsDecodedInstruction := by
  unfold Obligations.StepRunsDecodedInstruction
  intro s i turn run pc dec
  rw [step_of_engine turn run, cycle_of_ok (s := s.popTurn) pc dec]
  rfl

/-- Settles O7: the engine's turn in Running is a cycle, which checks the fetch first. -/
theorem fetchOutOfRangeHalts : Obligations.FetchOutOfRangeHalts := by
  unfold Obligations.FetchOutOfRangeHalts
  intro s turn run pc
  rw [step_of_engine turn run, cycle_of_outOfRange (s := s.popTurn) pc]
  rfl

/-- Settles O8, by cases on the word: an Unsupported one faults in the cycle, a 0nnn one in its execution, with its own
word, which is the fetched one. -/
theorem unsupportedWordHalts : Obligations.UnsupportedWordHalts := by
  unfold Obligations.UnsupportedWordHalts
  rintro s w turn run pc rfl (dec | ⟨nnn, dec⟩)
  · rw [step_of_engine turn run, cycle_of_error (s := s.popTurn) pc dec]
    rfl
  · rw [step_of_engine turn run, cycle_of_ok (s := s.popTurn) pc dec, ← (encodeOfDecodeIsIdentity _ _ dec).1]
    rfl

/-- Settles O9: SYS is the fault of an unsupported word, which writes the run state alone. -/
theorem sysRaisesUnsupportedOpcode : Obligations.SysRaisesUnsupportedOpcode := by
  unfold Obligations.SysRaisesUnsupportedOpcode
  exact fun nnn s => ⟨s.unsupported (encode (.sys nnn)), rfl, fun _ _ => rfl, rfl, rfl, ⟨rfl, fun _ => rfl⟩, ⟨rfl, rfl⟩,
    fun _ => rfl, fun _ _ => rfl, ⟨rfl, rfl, rfl, rfl, rfl⟩, rfl⟩

/-! ## The placed word (log entry 10) -/

section
variable (s : State) (w : Word)

theorem State.placeWord_pc : (s.placeWord w).pc = if s.pc.toNat ≤ 0x0FFE then s.pc else 0x200 := by
  simp [State.placeWord, fetchable]

theorem State.placeWord_pc_le : (s.placeWord w).pc.toNat ≤ 0x0FFE := by
  rw [State.placeWord_pc]
  split
  · assumption
  · decide

theorem State.placeWord_mem : (s.placeWord w).mem =
    (s.mem.write (s.placeWord w).pc.toNat (highByte w)).write ((s.placeWord w).pc.toNat + 1) (lowByte w) := rfl

theorem State.nextTurn_placeWord : (s.placeWord w).nextTurn = .engine := by
  change (if s.nextTurn = .engine then s.turns else .engine :: s.turns).headD .engine = .engine
  split
  · assumption
  · rfl

theorem State.turns_tail_placeWord :
    (s.placeWord w).turns.tail = if s.nextTurn = .engine then s.turns.tail else s.turns := by
  change (if s.nextTurn = .engine then s.turns else .engine :: s.turns).tail = _
  split <;> rfl

/-- What memory reads after a word was placed: the word's bytes at PC and PC+1, every other byte as before. -/
theorem State.readByte_placeWord (hm : s.mem.wf) (a : Addr) : (s.placeWord w).readByte a =
    if a.toNat = (s.placeWord w).pc.toNat + 1 then lowByte w
    else if a.toNat = (s.placeWord w).pc.toNat then highByte w else s.readByte a := by
  have hpc := s.placeWord_pc_le w
  rw [State.readByte, State.placeWord_mem, Memory.read_write _ (Memory.write_wf _ hm _ (by omega) _).1,
    Memory.read_write _ hm.1, State.readByte]

theorem State.fetchWord_placeWord (hm : s.mem.wf) : (s.placeWord w).fetchWord = w := by
  have hpc := s.placeWord_pc_le w
  have hhi : ((s.placeWord w).pc.setWidth 12).toNat = (s.placeWord w).pc.toNat := by
    bv_omega
  have hlo : (((s.placeWord w).pc + 1).setWidth 12).toNat = (s.placeWord w).pc.toNat + 1 := by
    bv_omega
  rw [State.fetchWord, State.readByte_placeWord _ _ hm, State.readByte_placeWord _ _ hm, hhi, hlo,
    if_neg (by omega), if_pos rfl, if_pos rfl, wordOfBytes_bytes]

end

theorem decode_of_decodeTableWord {nbits w : Nat} {i : Instr} (h : decodeTableWord nbits w = some i) :
    decode (tableWord nbits w) = .ok i := by
  simp only [decodeTableWord, wordBytes, decodeBytes, wordOfBytes_bytes] at h
  cases hdec : decode (tableWord nbits w) with
  | ok j => rw [hdec] at h; cases h; rfl
  | error e => rw [hdec] at h; cases h

/-- Settles O6: the engine has the next turn, PC can be fetched at, and the word read there is the placed one. -/
theorem placedWordIsRunNext : Obligations.PlacedWordIsRunNext := by
  unfold Obligations.PlacedWordIsRunNext
  intro s w i hm hdec
  let p := s.withFetchWord 16 w
  have hword : p.fetchWord = tableWord 16 w := s.fetchWord_placeWord _ hm
  have hdec : decode p.popTurn.fetchWord = .ok i := hword ▸ decode_of_decodeTableWord hdec
  refine ⟨p.popTurn, ?_, fun hpc => ?_, fun hpc => ?_, ?_, fun a hhi hlo => ?_, rfl, fun _ _ => rfl, rfl,
    ⟨rfl, fun _ => rfl⟩, ⟨rfl, rfl⟩, fun _ _ => rfl, rfl, rfl, rfl, rfl, s.turns_tail_placeWord _⟩
  · exact (step_of_engine (s.nextTurn_placeWord _) rfl).trans (cycle_of_ok (s := p.popTurn)
      (s.placeWord_pc_le (tableWord 16 w)) hdec)
  · exact (s.placeWord_pc (tableWord 16 w)).trans (if_pos hpc)
  · exact (s.placeWord_pc (tableWord 16 w)).trans (if_neg (by omega))
  · exact (congrArg BitVec.toNat hword).trans (by simp [tableWord])
  · exact (s.readByte_placeWord _ hm a).trans ((if_neg hlo).trans (if_neg hhi))

/-! ## The keyboard, the timer and the host (R199, R225, R239, R216) -/

/-- Settles O44: Fx0A is one write of the run state and the advance. -/
theorem keyWaitEntersAwaitingKey : Obligations.KeyWaitEntersAwaitingKey := by
  unfold Obligations.KeyWaitEntersAwaitingKey
  exact fun x s => ⟨by simp [decode, decodeMisc], (s.setRun (.awaitingKey x)).advance, rfl, rfl, rfl, fun _ _ => rfl,
    rfl, ⟨rfl, fun _ => rfl⟩, ⟨rfl, rfl⟩, fun _ => rfl, fun _ _ => rfl, rfl, rfl, rfl, rfl, rfl⟩

theorem step_of_key_awaiting {s : State} {k : Key} {x : Reg} (turn : s.nextTurn = .key k)
    (run : s.run = .awaitingKey x) : step s = .next (deliverKey x k s.popTurn) := by
  simp [step, takeTurn, whenLive, turn, run]

theorem step_of_key_running {s : State} {k : Key} (turn : s.nextTurn = .key k) (run : s.run = .running) :
    step s = .next s.popTurn := by
  simp [step, takeTurn, whenLive, turn, run]

/-- The register that waited holds the number of the key (R199). -/
theorem reg_deliverKey (x : Reg) (k : Key) (s : State) : ((deliverKey x k s).reg x).toNat = k.val := by
  have hreg : (deliverKey x k s).reg x = BitVec.ofNat 8 k.val := by simp [deliverKey]
  rw [hreg, BitVec.toNat_ofNat]
  omega

/-- Settles O45: a delivery is one register write and one of the run state; the two other turns have no effect. -/
theorem keyPressIsDeliveredOnlyWhileWaiting : Obligations.KeyPressIsDeliveredOnlyWhileWaiting := by
  unfold Obligations.KeyPressIsDeliveredOnlyWhileWaiting
  intro x k s
  refine ⟨fun turn run => ?_, step_of_key_running, step_of_engine_awaiting⟩
  exact ⟨_, step_of_key_awaiting turn run, reg_deliverKey x k _, rfl, sameRegsBut_setReg s x _, rfl, rfl,
    ⟨rfl, fun _ => rfl⟩, ⟨rfl, rfl⟩, fun _ => rfl, fun _ _ => rfl, rfl, rfl, rfl, rfl, rfl⟩

/-- Settles O48, by cases on the turn: every agent but the host's reset is asked whether the machine is live. -/
theorem haltedAndStoppedAreTerminal : Obligations.HaltedAndStoppedAreTerminal := by
  unfold Obligations.HaltedAndStoppedAreTerminal
  intro s hturn
  cases turn : s.nextTurn with
  | reset rom => exact absurd turn (hturn rom)
  | engine | timer | key | stop =>
    exact ⟨fun f run => by simp [step, turn, takeTurn, whenLive, run],
      fun run => by simp [step, turn, takeTurn, whenLive, run]⟩

theorem countDown_toNat (b : Byte) : (countDown b).toNat = b.toNat - 1 := by
  unfold countDown
  split
  · next h => simp [h]
  · bv_omega

/-- Settles O46: a tick counts both timers down; in the terminal run states no turn but a reset answers a state. -/
theorem tickDecrementsBothTimers : Obligations.TickDecrementsBothTimers := by
  unfold Obligations.TickDecrementsBothTimers
  refine fun s turn => ⟨fun live => ?_, fun terminal t h => ?_⟩
  · exact ⟨_, step_of_timer turn live, countDown_toNat _, countDown_toNat _, fun _ _ => rfl, rfl, rfl,
      ⟨rfl, fun _ => rfl⟩, fun _ => rfl, rfl, fun _ _ => rfl, rfl, rfl, rfl, rfl, rfl⟩
  · obtain ⟨hhalted, hstopped⟩ := haltedAndStoppedAreTerminal s (turn ▸ nofun)
    rcases terminal with ⟨f, run⟩ | run
    · cases (hhalted f run).symm.trans h
    · cases (hstopped run).symm.trans h

/-- Settles O47: the stop signal is the same in both live run states. -/
theorem stopSignalStops : Obligations.StopSignalStops := by
  unfold Obligations.StopSignalStops
  intro s turn live
  rw [step, turn, takeTurn, whenLive_of_live (s := s.popTurn) live]
  rfl

end Sys2Proof.Machine
end

section
/-! PROOFS. Reset and ROM load (spec/70_reset_and_hazards.md). -/

namespace Sys2Proof.Machine

@[simp] theorem State.reg_reset (r : Reg) : State.reset.reg r = 0 := by
  simp [State.reset, State.reg]

@[simp] theorem State.stack_reset (j : Fin 16) : State.reset.stack[j.val] = 0 := by
  simp [State.reset]

/-- Settles O10: the fields of the reset state, and the reset byte of every address. -/
theorem resetState : Obligations.ResetState := by
  unfold Obligations.ResetState
  exact ⟨State.reg_reset, rfl, rfl, rfl, State.stack_reset, rfl, rfl, fun _ => rfl, rfl, FrameBuffer.pixel_clear, rfl,
    rfl⟩

/-- What a load that fits answers: the reset state with the ROM in memory, and the environment's lists going on. -/
theorem boot_of_fits {rom : List Byte} (s : State) (len : rom.length ≤ 0xE00) :
    boot rom s = .next { State.reset with
      mem := State.reset.mem.load programBase rom
      turns := s.turns, randomBytes := s.randomBytes, keyAnswers := s.keyAnswers
      draws := s.draws, polls := s.polls } := if_pos len

theorem boot_of_tooLarge {rom : List Byte} (s : State) (len : 0xE00 < rom.length) :
    boot rom s = .refused (.romTooLarge rom.length) := if_neg (not_le.mpr len)

/-- Settles O11, by cases on the length: the stream is written from 0x200 upward, or refused. -/
theorem romLoadWritesStreamOrRefuses : Obligations.RomLoadWritesStreamOrRefuses := by
  unfold Obligations.RomLoadWritesStreamOrRefuses
  intro rom s turn
  rw [step_of_reset turn]
  refine ⟨fun len => ⟨_, boot_of_fits _ len, fun k hk => ?_, fun a ha => ?_⟩, boot_of_tooLarge _⟩
  all_goals
    rw [State.readByte, (Memory.load_spec rom _ Memory.reset_wf 0x200 (by omega)).2]
  · have haddr : (BitVec.ofNat 12 (0x200 + k)).toNat = 0x200 + k := by rw [BitVec.toNat_ofNat]; omega
    simp [haddr, hk]
  · exact dif_neg (by omega)

/-- Settles O12: every field of the load's answer is that of the reset state, or a list of the environment. -/
theorem hostResetRebuildsState : Obligations.HostResetRebuildsState := by
  unfold Obligations.HostResetRebuildsState
  intro rom s turn len
  rw [step_of_reset turn]
  exact ⟨_, boot_of_fits _ len, fun _ _ => rfl, rfl, rfl, ⟨rfl, fun _ => rfl⟩, rfl, rfl, rfl, fun _ _ => rfl, rfl, rfl,
    rfl, rfl, rfl⟩

/-- Any memory in canonical form over the font, on the reset registers, meets the invariant. -/
theorem State.inv_of_reset {s : State} (memory : s.mem.wf) (font : ∀ a ≤ fontEnd, s.mem.read a = Config.fontByte a)
    (pc : s.pc = State.reset.pc) (stack : s.stack = State.reset.stack) (run : s.run = .running) : s.Inv where
  memory := memory
  font := font
  pc := by rw [pc]; decide
  stack j := by rw [stack, State.stack_reset]; decide
  record f hf := by simp [State.faultRecord, run] at hf

theorem Memory.read_reset_font (a : Nat) (ha : a ≤ 0x04F) : State.reset.mem.read a = Config.fontByte a := if_pos ha

/-- Settles O60: the reset memory is canonical and reads as the font there. -/
theorem resetMeetsInvariant : Obligations.ResetMeetsInvariant :=
  State.inv_of_reset Memory.reset_wf Memory.read_reset_font rfl rfl rfl

/-- The load starts at 0x200, above the font. -/
theorem boot_inv {rom : List Byte} {s t : State} (len : rom.length ≤ 0xE00) (h : boot rom s = .next t) : t.Inv := by
  rw [boot_of_fits s len] at h
  cases h
  obtain ⟨hwf, hread⟩ := Memory.load_spec rom _ Memory.reset_wf 0x200 (by omega)
  refine State.inv_of_reset hwf (fun a (ha : a ≤ 0x04F) => ?_) rfl rfl rfl
  rw [hread, dif_neg (by omega), Memory.read_reset_font a ha]

end Sys2Proof.Machine
end

section
/-! PROOFS. Nested calls and returns (spec/40_control_flow.md R100, R102). -/

namespace Sys2Proof.Machine

theorem execAll_cons {i : Instr} {s t : State} (h : exec i s = .next t) (is : List Instr) :
    execAll (i :: is) s = execAll is t := by
  rw [execAll, h]

/-- A list of instructions that answers a state is followed by the rest of the program on that state. -/
theorem execAll_append {is : List Instr} {s t : State} (h : execAll is s = .next t) (js : List Instr) :
    execAll (is ++ js) s = execAll js t := by
  induction is generalizing s with
  | nil => cases h; rfl
  | cons i is ih =>
    cases hexec : exec i s with
    | next u =>
      rw [List.cons_append, execAll_cons hexec]
      exact ih (execAll_cons hexec is ▸ h)
    | fault | refused => simp [execAll, hexec] at h

/-- Calls that fit the stack, followed by as many returns: by induction on the calls, of which the first puts its
return address in a slot that all the others leave. -/
theorem nested_calls_return (targets : List Addr) (s : State) (h : s.sp.val + targets.length ≤ 16) :
    ∃ t, execAll (targets.map .call ++ List.replicate targets.length .ret) s = .next t ∧ t.sp = s.sp ∧
      (targets ≠ [] → t.pc = s.pc + 2) ∧ t.run = s.run ∧ SameRegsBut [] s t ∧
      ∀ j : Fin 16, j.val < s.sp.val → t.stack[j.val] = s.stack[j.val] := by
  induction targets generalizing s with
  | nil => exact ⟨s, rfl, rfl, fun h => absurd rfl h, rfl, fun _ _ => rfl, fun _ _ => rfl⟩
  | cons target targets ih =>
    rw [List.length_cons] at h
    let slot : Fin 16 := ⟨s.sp.val, by omega⟩
    obtain ⟨c, hcall, hcslot, hcother, hcsp, -, hcregs, -, -, -, hcrun, -⟩ :=
      (callPushesReturnAddress target s).2.1 slot rfl
    obtain ⟨u, hnest, husp, -, hurun, huregs, hubelow⟩ := ih c (by omega)
    have husp : u.sp.val = slot.val + 1 := (congrArg Fin.val husp).trans hcsp
    obtain ⟨t, hret, htpc, htsp, htstack, htregs, -, -, -, htrun, -⟩ := (returnPopsPc u).2.1 slot husp
    refine ⟨t, ?_, Fin.ext htsp, fun _ => ?_, htrun.trans (hurun.trans hcrun),
      fun r hr => (htregs r hr).trans ((huregs r hr).trans (hcregs r hr)), fun j hj => ?_⟩
    · rw [List.map_cons, List.cons_append, execAll_cons hcall, List.length_cons, List.replicate_succ',
        ← List.append_assoc, execAll_append hnest, execAll_cons hret, execAll]
    · calc t.pc = u.stack[slot.val] := htpc
        _ = c.stack[slot.val] := hubelow slot (by rw [hcsp]; exact Nat.lt_succ_self _)
        _ = s.pc + 2 := hcslot
    · calc t.stack[j.val] = u.stack[j.val] := htstack j
        _ = c.stack[j.val] := hubelow j (by omega)
        _ = s.stack[j.val] := hcother j (fun e => absurd (congrArg Fin.val e) (Nat.ne_of_lt hj))

/-- Settles O17: the nesting of a first call and the rest of them. -/
theorem nestedCallsReturnInOrder : Obligations.NestedCallsReturnInOrder := by
  unfold Obligations.NestedCallsReturnInOrder
  intro s first rest h
  obtain ⟨t, hexec, hsp, hpc, hframe⟩ := nested_calls_return (first :: rest) s h
  exact ⟨t, hexec, hsp, hpc (List.cons_ne_nil _ _), hframe⟩

/-- Calls that fit the stack, by induction on their targets: each adds 1 to SP. -/
theorem execAll_calls (targets : List Addr) (s : State) (h : s.sp.val + targets.length ≤ 16) :
    ∃ t, execAll (targets.map .call) s = .next t ∧ t.sp.val = s.sp.val + targets.length ∧ t.run = s.run := by
  induction targets generalizing s with
  | nil => exact ⟨s, rfl, rfl, rfl⟩
  | cons target targets ih =>
    rw [List.length_cons] at h ⊢
    obtain ⟨c, hcall, -, -, hcsp, -, -, -, -, -, hcrun, -⟩ :=
      (callPushesReturnAddress target s).2.1 ⟨s.sp.val, by omega⟩ rfl
    obtain ⟨t, hcalls, htsp, htrun⟩ := ih c (by omega)
    exact ⟨t, by rw [List.map_cons, execAll_cons hcall, hcalls], by omega, htrun.trans hcrun⟩

/-- Settles O18: sixteen calls fill the stack, and a call on a full stack faults. -/
theorem seventeenthNestedCallOverflows : Obligations.SeventeenthNestedCallOverflows := by
  unfold Obligations.SeventeenthNestedCallOverflows
  intro s targets last hsp hrun hlen
  have hsp : s.sp.val = 0 := congrArg Fin.val hsp
  obtain ⟨t, hcalls, htsp, htrun⟩ := execAll_calls targets s (by omega)
  have hfull : t.sp.val = 16 := by omega
  refine ⟨t, hcalls, Fin.ext hfull, htrun.trans hrun, ?_⟩
  rw [List.map_append, execAll_append hcalls]
  exact execAll_cons (exec_call_of_full t last hfull) []

end Sys2Proof.Machine
end

section
/-! PROOFS. Logic, subtraction and the random byte: 8xy1 to 8xy3, 8xy5, 8xy7, Cxkk (spec/42_register_alu.md). -/

namespace Sys2Proof.Machine

/-! ## Logic: one register write of the bitwise result (R144, R145, R146) -/

/-- An instruction that is one write of a byte `b` with the bits of `f` on the operands' bits, then the advance. -/
theorem exists_next_of_bitwise {i : Instr} {s : State} {x y : Reg} {b : Byte} {f : Bool → Bool → Bool}
    (hexec : exec i s = .next (s.setReg x b).advance)
    (hbits : ∀ k, b.getLsbD k = f ((s.reg x).getLsbD k) ((s.reg y).getLsbD k)) :
    ∃ t, exec i s = .next t ∧ (∀ k < 8, (t.reg x).getLsbD k = f ((s.reg x).getLsbD k) ((s.reg y).getLsbD k)) ∧
      SameRegsBut [x] s t ∧ t.pc = s.pc + 2 ∧ SameButRegsPc s t := by
  obtain ⟨t, hexec, hreg, hframe⟩ := exists_next_of_setReg hexec
  exact ⟨t, hexec, fun k _ => hreg ▸ hbits k, hframe⟩

/-- Settles O25: each of the three is one register write, of a byte whose bits are the operation on the operands'. -/
theorem logicOperations : Obligations.LogicOperations := by
  unfold Obligations.LogicOperations
  intro x y s
  refine ⟨by simp [decode, decodeAlu], by simp [decode, decodeAlu], by simp [decode, decodeAlu], ?or, ?and, ?xor⟩
  case or => exact exists_next_of_bitwise rfl fun _ => BitVec.getLsbD_or
  case and => exact exists_next_of_bitwise rfl fun _ => BitVec.getLsbD_and
  case xor => exact exists_next_of_bitwise rfl fun _ => BitVec.getLsbD_xor

/-! ## Subtraction (R149, R151) -/

theorem flagByte_notBorrow_toNat (a b : Byte) :
    (flagByte (notBorrow a b)).toNat = if a.toNat ≥ b.toNat then 1 else 0 := by
  rw [flagByte_toNat, notBorrow]
  by_cases h : b.toNat ≤ a.toNat <;> simp [h]

/-- The wrapped difference of two bytes is the difference of their numbers mod 2^8. -/
theorem toNat_sub_eq_emod (a b : Byte) : ((a - b).toNat : Int) = (a.toNat - b.toNat : Int) % 2 ^ 8 := by
  rw [BitVec.toNat_sub]
  omega

/-- An instruction that is one `aluFlag` with the difference `a - b` of two bytes and NOT borrow. -/
theorem exists_next_of_difference {i : Instr} {s : State} {x y : Reg} {f : Byte → Byte → Byte}
    {flag : Byte → Byte → Bool} {a b : Byte} (hexec : exec i s = .next (aluFlag f flag x y s))
    (hresult : f (s.reg x) (s.reg y) = a - b) (hflag : flag (s.reg x) (s.reg y) = notBorrow a b) :
    ∃ t, exec i s = .next t ∧ (x ≠ VF → ((t.reg x).toNat : Int) = (a.toNat - b.toNat : Int) % 2 ^ 8) ∧
      (t.reg VF).toNat = (if a.toNat ≥ b.toNat then 1 else 0) ∧
      SameRegsBut [x, VF] s t ∧ t.pc = s.pc + 2 ∧ SameButRegsPc s t := by
  obtain ⟨t, hexec, hreg, hVF, hframe⟩ := exists_next_of_aluFlag hexec (congrArg BitVec.toNat hresult)
    (hflag ▸ flagByte_notBorrow_toNat a b)
  exact ⟨t, hexec, fun hx => by rw [hreg hx, toNat_sub_eq_emod], hVF, hframe⟩

/-- Settles O27: the two are one `aluFlag` each, with the operands in the one order or the other. -/
theorem subtractionsSetNotBorrow : Obligations.SubtractionsSetNotBorrow := by
  unfold Obligations.SubtractionsSetNotBorrow
  exact fun x y s => ⟨by simp [decode, decodeAlu], by simp [decode, decodeAlu],
    exists_next_of_difference rfl rfl rfl, exists_next_of_difference rfl rfl rfl⟩

/-! ## The random byte (R153) -/

/-- Settles O29: RND is one draw and one register write, of the drawn byte masked. -/
theorem randomByteIsMasked : Obligations.RandomByteIsMasked := by
  unfold Obligations.RandomByteIsMasked
  intro x kk s
  exact ⟨by simp [decode], s.randomByte, (s.afterDraw.setReg x (s.randomByte &&& kk)).advance,
    fun a rest h => s.randomByte_cons a rest h, rfl, by simp, sameRegsBut_setReg s.afterDraw x _, rfl,
    ⟨rfl, ⟨rfl, fun _ => rfl⟩, ⟨rfl, rfl⟩, fun _ => rfl, rfl, fun _ _ => rfl⟩, rfl, rfl, rfl, rfl, rfl⟩

end Sys2Proof.Machine
end

section
/-! PROOFS. The address register: Fx1E, Fx29 (spec/43_index_and_memory.md R171, R172). -/

namespace Sys2Proof.Machine

theorem byteWord_toNat (b : Byte) : (byteWord b).toNat = b.toNat := by
  simp only [byteWord, BitVec.toNat_setWidth]
  omega

theorem flagByte_indexOverflow_toNat (i : Word) (b : Byte) :
    (flagByte (indexOverflow i b)).toNat = if i.toNat + b.toNat > 0x0FFF then 1 else 0 := by
  rw [flagByte_toNat, indexOverflow]
  by_cases h : 0x0FFF < i.toNat + b.toNat <;> simp [h]

/-- Settles O31: ADD I is one write of I, then one of VF; the flag is computed before the wrap. -/
theorem addIndexSetsOverflow : Obligations.AddIndexSetsOverflow := by
  unfold Obligations.AddIndexSetsOverflow
  intro x s
  refine ⟨by simp [decode, decodeMisc],
    ((s.setI (indexSum s.i (s.reg x))).setFlag (indexOverflow s.i (s.reg x))).advance, rfl, ?_, ?_,
    sameRegsBut_setReg (s.setI (indexSum s.i (s.reg x))) VF _, rfl, sameButRegsIndexPc_update s _ _ _⟩
  · exact (BitVec.toNat_add ..).trans (by rw [byteWord_toNat])
  · simp [flagByte_indexOverflow_toNat]

/-- Five times a byte is below 2^16, so the multiplication does not wrap (R172). -/
theorem glyphAddress_toNat (b : Byte) : (glyphAddress b).toNat = 5 * b.toNat := by
  have hfive : (5 : Word).toNat = 5 := rfl
  rw [glyphAddress, BitVec.toNat_mul, byteWord_toNat, hfive]
  omega

theorem readByte_reset_font {a : Nat} (ha : a ≤ 0x04F) :
    State.reset.readByte (BitVec.ofNat 12 a) = Config.fontByte a := by
  have haddr : (BitVec.ofNat 12 a).toNat = a := by rw [BitVec.toNat_ofNat]; omega
  rw [State.readByte, haddr, Memory.read_reset_font a ha]

/-- Settles O32: LD F is one write of I; the glyph of a digit ends at 0x04F at the latest. -/
theorem loadGlyphAddress : Obligations.LoadGlyphAddress := by
  unfold Obligations.LoadGlyphAddress
  intro x s
  obtain ⟨t, hexec, hi, hpc, hregs, hstack, htimers, hmem, hrun, hdisplay, hinputs⟩ :=
    exists_next_of_setI (i := .ldF x) (s := s) rfl
  have hi : t.i.toNat = 5 * (s.reg x).toNat := hi ▸ glyphAddress_toNat _
  refine ⟨by simp [decode, decodeMisc], t, hexec, hi, hpc, hregs, hstack, htimers, hmem, hrun, hdisplay, hinputs,
    fun hdigit k hk => ?_⟩
  rw [hi, readByte_reset_font (by omega)]

end Sys2Proof.Machine
end

section
/-! PROOFS. The key skips: Ex9E, ExA1 (spec/41_conditional_skip.md R124, R125, R127). -/

namespace Sys2Proof.Machine

theorem exec_skp_of_key {s : State} {x : Reg} {k : Key} (h : keyOf (s.reg x) = some k) :
    exec (.skp x) s = .next (s.afterPoll.skipIf (s.keyPressed k)) := by
  simp only [exec, execSkp, h]

theorem exec_sknp_of_key {s : State} {x : Reg} {k : Key} (h : keyOf (s.reg x) = some k) :
    exec (.sknp x) s = .next (s.afterPoll.skipIf (!s.keyPressed k)) := by
  simp only [exec, execSknp, h]

theorem exec_skp_of_noKey {s : State} {x : Reg} (h : keyOf (s.reg x) = none) :
    exec (.skp x) s = .next (s.raiseIn (.skp x) .invalidKey (.key (s.reg x))) := by
  simp only [exec, execSkp, h]

theorem exec_sknp_of_noKey {s : State} {x : Reg} (h : keyOf (s.reg x) = none) :
    exec (.sknp x) s = .next (s.raiseIn (.sknp x) .invalidKey (.key (s.reg x))) := by
  simp only [exec, execSknp, h]

theorem sameCore_afterPoll (s : State) (pc : Word) : SameCore s (s.afterPoll.setPc pc) :=
  ⟨rfl, ⟨rfl, fun _ => rfl⟩, ⟨rfl, rfl⟩, fun _ => rfl, rfl, fun _ _ => rfl⟩

/-- Settles O20: both skips make one call and follow its answer, one of them inverted. -/
theorem keySkipFollowsKeyState : Obligations.KeySkipFollowsKeyState := by
  unfold Obligations.KeySkipFollowsKeyState
  intro x s hx
  have hkey := keyOf_eq_some (s.reg x) (by omega)
  refine ⟨_, _, _, fun a rest h => s.keyPressed_cons _ a rest h, exec_skp_of_key hkey, exec_sknp_of_key hkey, rfl, ?_,
    fun _ _ => rfl, sameCore_afterPoll s _, fun _ _ => rfl, sameCore_afterPoll s _, rfl, rfl, rfl, rfl, rfl, rfl, rfl,
    rfl, rfl, rfl⟩
  cases s.keyPressed ⟨(s.reg x).toNat, _⟩ <;> rfl

/-- Settles O21: a byte above 0x0F is the number of no key. -/
theorem keySkipRaisesInvalidKey : Obligations.KeySkipRaisesInvalidKey := by
  unfold Obligations.KeySkipRaisesInvalidKey
  intro x s hx
  have hkey := keyOf_eq_none (s.reg x) hx
  exact ⟨exec_skp_of_noKey hkey, exec_sknp_of_noKey hkey⟩

end Sys2Proof.Machine
end

section
/-! PROOFS. The stores Fx33 and Fx55, the load Fx65, and the fetch of stored bytes (spec/43_index_and_memory.md,
spec/20_memory.md). -/

namespace Sys2Proof.Machine

/-! ## Both stores write bytes `val 0` to `val (n-1)` at ea(0) to ea(n-1) (R173, R174) -/

/-- The writes of `val 0` to `val (n-1)` at ea(0) to ea(n-1). -/
def offsetWrites (i : Word) (n : Nat) (val : Nat → Byte) : List (Addr × Byte) :=
  (List.range n).map fun k => (ea i k, val k)

/-- The byte that Fx55 stores at ea(k). -/
def regByte (s : State) (k : Nat) : Byte := s.reg (Fin.ofNat 16 k)

/-- The byte that Fx33 stores at ea(k): hundreds, tens, units. -/
def bcdDigit (b : Byte) (k : Nat) : Byte := BitVec.ofNat 8 (b.toNat / 10 ^ (2 - k) % 10)

theorem regByte_val (s : State) (r : Reg) : regByte s r.val = s.reg r := by
  simp [regByte]

theorem storeWrites_eq (s : State) (x : Reg) : s.storeWrites x = offsetWrites s.i (x.val + 1) (regByte s) := by
  rw [State.storeWrites, regsUpTo, List.map_map]
  refine List.map_congr_left fun k hk => ?_
  have hk : k % 16 = k := by rw [List.mem_range] at hk; omega
  simp [regByte, hk]

theorem bcdWrites_eq (i : Word) (b : Byte) : bcdWrites i b = offsetWrites i 3 (bcdDigit b) := by
  have hundreds : b.toNat / 100 % 10 = b.toNat / 100 := Nat.mod_eq_of_lt (by omega)
  simp [bcdWrites, offsetWrites, bcdDigit, List.range_succ, hundreds]

theorem exec_storeRegs (x : Reg) (s : State) : exec (.storeRegs x) s =
    .next (storeAll (.storeRegs x) (offsetWrites s.i (x.val + 1) (regByte s)) s) := by
  rw [← storeWrites_eq]
  rfl

theorem exec_ldB (x : Reg) (s : State) : exec (.ldB x) s =
    .next (storeAll (.ldB x) (offsetWrites s.i 3 (bcdDigit (s.reg x))) s) := by
  rw [← bcdWrites_eq]
  rfl

/-! ## The font check of such writes (R56) -/

/-- The state after the writes of `val 0` to `val (n-1)` at ea(0) to ea(n-1), and the advance. -/
def stored (s : State) (n : Nat) (val : Nat → Byte) : State :=
  { s with mem := s.mem.writeAll (offsetWrites s.i n val), pc := s.pc + 2 }

section
variable (i : Instr) {s : State} {n : Nat} {val : Nat → Byte}

theorem storeAll_of_first_in_font {k : Nat} (hk : k < n) (hfont : (ea s.i k).toNat ≤ 0x04F)
    (hfirst : ∀ j < k, 0x04F < (ea s.i j).toNat) :
    storeAll i (offsetWrites s.i n val) s = s.raiseIn i .fontWrite (.address (ea s.i k)) := by
  have hfind : (List.range n).find? (fun k => inFont (ea s.i k)) = some k := by
    rw [List.find?_range_eq_some]
    exact ⟨(inFont_iff _).mpr hfont, List.mem_range.mpr hk, fun j hj => by simpa [inFont] using hfirst j hj⟩
  have hfind : (offsetWrites s.i n val).find? (fun w => inFont w.1) = some (ea s.i k, val k) := by
    rw [offsetWrites, List.find?_map]
    exact congrArg _ hfind
  rw [storeAll, State.writeChecked, hfind]

theorem storeAll_of_outside_font (h : ∀ k < n, 0x04F < (ea s.i k).toNat) :
    storeAll i (offsetWrites s.i n val) s = stored s n val := by
  rcases storeAll_cases i (offsetWrites s.i n val) s with ⟨-, heq⟩ | ⟨w, hw, hfont, -⟩
  · exact heq
  · obtain ⟨k, hk, rfl⟩ := List.mem_map.mp hw
    exact absurd hfont (not_le.mpr (h k (List.mem_range.mp hk)))

/-- Either no target is in the font, or there is a first one. -/
theorem outside_font_or_first (w : Word) (n : Nat) : (∀ k < n, 0x04F < (ea w k).toNat) ∨
    ∃ k < n, (ea w k).toNat ≤ 0x04F ∧ ∀ j < k, 0x04F < (ea w j).toNat := by
  by_cases h : ∃ k, (ea w k).toNat ≤ 0x04F
  · have hfirst (j : Nat) (hj : j < Nat.find h) : 0x04F < (ea w j).toNat := not_le.mp (Nat.find_min h hj)
    by_cases hn : Nat.find h < n
    · exact .inr ⟨Nat.find h, hn, Nat.find_spec h, hfirst⟩
    · exact .inl fun k hk => hfirst k (by omega)
  · exact .inl fun k _ => not_le.mp fun hk => h ⟨k, hk⟩

end

/-- Settles O35: both stores are checked writes at the same run of addresses. -/
theorem storeIntoFontFaults : Obligations.StoreIntoFontFaults := by
  unfold Obligations.StoreIntoFontFaults
  intro x s k hfont hfirst
  refine ⟨fun hk => ?_, fun hk => ?_⟩
  · rw [exec_ldB, storeAll_of_first_in_font _ hk hfont hfirst]
    rfl
  · rw [exec_storeRegs, storeAll_of_first_in_font _ (Nat.lt_succ_of_le hk) hfont hfirst]
    rfl

/-! ## What memory reads after the writes -/

/-- Every address reads as the byte stored there, or as before; the targets are distinct. -/
theorem storedOrOld_stored {s : State} {n : Nat} (val : Nat → Byte) (hm : s.mem.wf) (hn : n ≤ 16) (a : Addr) :
    StoredOrOld s n val a ((stored s n val).readByte a) := by
  constructor
  · rintro k hk rfl
    refine Memory.read_writeAll_mem _ s.mem hm ?_ (ea s.i k, val k) (List.mem_map_of_mem (List.mem_range.mpr hk))
    rw [offsetWrites, List.pairwise_map]
    refine List.Pairwise.imp_of_mem (fun {j l} hj hl hlt e => ?_) List.pairwise_lt_range
    rw [List.mem_range] at hj hl
    exact absurd (ea_inj s.i j l (by omega) (by omega) e) (Nat.ne_of_lt hlt)
  · intro ha
    refine Memory.read_writeAll_other _ s.mem hm _ fun w hw e => ?_
    obtain ⟨k, hk, rfl⟩ := List.mem_map.mp hw
    exact ha k (List.mem_range.mp hk) (BitVec.eq_of_toNat_eq e.symm)

/-- An address holds one byte after the writes. -/
theorem StoredOrOld.unique {s : State} {n : Nat} {val : Nat → Byte} {a : Addr} {b c : Byte}
    (hb : StoredOrOld s n val a b) (hc : StoredOrOld s n val a c) : b = c := by
  by_cases h : ∃ k, k < n ∧ a = ea s.i k
  · obtain ⟨k, hk, ha⟩ := h
    rw [hb.1 k hk ha, hc.1 k hk ha]
  · have ha (k : Nat) (hk : k < n) (e : a = ea s.i k) : False := h ⟨k, hk, e⟩
    rw [hb.2 ha, hc.2 ha]

/-- Everything but memory and PC is as before. -/
def SameButMemoryPc (s t : State) : Prop :=
  SameRegsBut [] s t ∧ t.i = s.i ∧ SameStack s t ∧ SameTimers s t ∧ t.run = s.run ∧ SameDisplay s t ∧ SameInputs s t

theorem sameButMemoryPc_stored (s : State) (n : Nat) (val : Nat → Byte) : SameButMemoryPc s (stored s n val) :=
  ⟨fun _ _ => rfl, rfl, ⟨rfl, fun _ => rfl⟩, ⟨rfl, rfl⟩, rfl, fun _ _ => rfl, rfl, rfl, rfl, rfl, rfl⟩

/-- Fx55 with no target in the font. -/
theorem exec_storeRegs_of_outside_font {x : Reg} {s : State} (h : ∀ r : Reg, r ≤ x → 0x04F < (ea s.i r.val).toNat) :
    exec (.storeRegs x) s = .next (stored s (x.val + 1) (regByte s)) := by
  rw [exec_storeRegs, storeAll_of_outside_font]
  exact fun k hk => h ⟨k, by omega⟩ (Fin.le_def.mpr (Nat.le_of_lt_succ hk))

/-- Fx33 with no target in the font. -/
theorem exec_ldB_of_outside_font {x : Reg} {s : State} (h : ∀ k < 3, 0x04F < (ea s.i k).toNat) :
    exec (.ldB x) s = .next (stored s 3 (bcdDigit (s.reg x))) := by
  rw [exec_ldB, storeAll_of_outside_font _ h]

theorem readByte_stored_reg {s : State} {x r : Reg} (hm : s.mem.wf) (hr : r ≤ x) :
    (stored s (x.val + 1) (regByte s)).readByte (ea s.i r.val) = s.reg r :=
  ((storedOrOld_stored _ hm (by omega) _).1 r.val (Nat.lt_succ_of_le (Fin.le_def.mp hr)) rfl).trans (regByte_val s r)

theorem bcdDigit_toNat (b : Byte) (k : Nat) : (bcdDigit b k).toNat = b.toNat / 10 ^ (2 - k) % 10 := by
  rw [bcdDigit, BitVec.toNat_ofNat]
  exact Nat.mod_eq_of_lt ((Nat.mod_lt _ (by decide)).trans (by decide))

/-- Settles O33: the digit of each target, and the old byte of every other address. -/
theorem storeBcdWritesThreeDigits : Obligations.StoreBcdWritesThreeDigits := by
  unfold Obligations.StoreBcdWritesThreeDigits
  intro x s hm hfont
  have hread := storedOrOld_stored (s := s) (bcdDigit (s.reg x)) hm (n := 3) (by decide)
  have hdigit (k : Nat) (hk : k < 3) : ((stored s 3 (bcdDigit (s.reg x))).readByte (ea s.i k)).toNat =
      (s.reg x).toNat / 10 ^ (2 - k) % 10 := by rw [(hread _).1 k hk rfl, bcdDigit_toNat]
  refine ⟨_, exec_ldB_of_outside_font hfont, (hdigit 0 (by decide)).trans (Nat.mod_eq_of_lt (by omega)),
    hdigit 1 (by decide), (hdigit 2 (by decide)).trans (by rw [Nat.pow_zero, Nat.div_one]), fun a ha => ?_, rfl,
    sameButMemoryPc_stored s _ _⟩
  refine (hread a).2 fun k hk e => ha ?_
  interval_cases k <;> simp [e]

/-- Settles O34: the register of each target, and the old byte of every other address. -/
theorem storeRegistersWritesEachByte : Obligations.StoreRegistersWritesEachByte := by
  unfold Obligations.StoreRegistersWritesEachByte
  intro x s hm hfont
  refine ⟨_, exec_storeRegs_of_outside_font hfont, fun r hr => readByte_stored_reg hm hr, fun a ha => ?_, rfl,
    sameButMemoryPc_stored s _ _⟩
  exact (storedOrOld_stored _ hm (by omega) a).2 fun k hk =>
    ha ⟨k, by omega⟩ (Fin.le_def.mpr (Nat.le_of_lt_succ hk))

/-! ## The load (R175) -/

/-- Settles O36: the loads of Fx65 are register writes alone. -/
theorem loadRegistersReadsEachByte : Obligations.LoadRegistersReadsEachByte := by
  unfold Obligations.LoadRegistersReadsEachByte
  intro x s
  have hreg := s.reg_loadUpTo x
  obtain ⟨v, hv⟩ := s.loadUpTo_eq x
  refine ⟨by simp [decode, decodeMisc], (s.loadUpTo x).advance, rfl, fun r hr => (hreg r).trans (if_pos hr),
    fun r hr => (hreg r).trans (if_neg (not_le.mpr hr)), ?_⟩
  rw [hv]
  exact ⟨rfl, sameButRegsPc_update s v _⟩

/-- Settles O37: the load reads the addresses of the store, as I is the same. -/
theorem storeThenLoadRestoresRegisters : Obligations.StoreThenLoadRestoresRegisters := by
  unfold Obligations.StoreThenLoadRestoresRegisters
  intro x s t u hm hfont hstore hi hmem
  rw [exec_storeRegs_of_outside_font hfont] at hstore
  cases hstore
  obtain ⟨-, v, hload, hregs, -⟩ := loadRegistersReadsEachByte x u
  refine ⟨v, hload, fun r hr => ?_⟩
  have hi : u.i = s.i := hi
  rw [hregs r hr, hmem, hi, readByte_stored_reg hm hr]

/-! ## The fetch of stored bytes (R63) -/

/-- With the memory that the writes left, the engine runs the instruction that the bytes at PC and PC+1 make. -/
theorem step_of_storedOrOld {s u : State} {n : Nat} {val : Nat → Byte} {hi lo : Byte} {i : Instr} (hm : s.mem.wf)
    (hn : n ≤ 16) (mem : u.mem = (stored s n val).mem) (run : u.run = .running) (turn : u.nextTurn = .engine)
    (pc : u.pc.toNat ≤ 0x0FFE) (dec : decode (wordOfBytes hi lo) = .ok i)
    (hhi : StoredOrOld s n val (u.pc.setWidth 12) hi) (hlo : StoredOrOld s n val ((u.pc + 1).setWidth 12) lo) :
    step u = exec i { u with turns := u.turns.tail } := by
  have hread (a : Addr) : u.readByte a = (stored s n val).readByte a := by rw [State.readByte, mem]; rfl
  have hhi : u.readByte (u.pc.setWidth 12) = hi := (hread _).trans ((storedOrOld_stored val hm hn _).unique hhi)
  have hlo : u.readByte ((u.pc + 1).setWidth 12) = lo := (hread _).trans ((storedOrOld_stored val hm hn _).unique hlo)
  exact stepRunsDecodedInstruction u i turn run pc (by rw [hhi, hlo, dec])

/-- Settles O38: the stores of both instructions are writes of one form. -/
theorem storedBytesAreFetchedNext : Obligations.StoredBytesAreFetchedNext := by
  unfold Obligations.StoredBytesAreFetchedNext
  intro x s t u hi lo i hm mem run turn pc dec
  refine ⟨fun hfont hstore hhi hlo => ?_, fun hfont hstore hhi hlo => ?_⟩
  · rw [exec_storeRegs_of_outside_font hfont] at hstore
    cases hstore
    exact step_of_storedOrOld hm (by omega) mem run turn pc dec hhi hlo
  · rw [exec_ldB_of_outside_font hfont] at hstore
    cases hstore
    exact step_of_storedOrOld hm (by decide) mem run turn pc dec hhi hlo

end Sys2Proof.Machine
end

section
/-! PROOFS. The sprite draw Dxyn (spec/44_timers_display_keys.md R194, spec/60_exceptions.md R232). -/

namespace Sys2Proof.Machine

/-- The pixels that Dxyn toggles are the ones its sprite covers (R232). -/
theorem mem_spritePixels_iff (s : State) (x y : Reg) (n : Nibble) (px : Column) (py : Row) :
    (px, py) ∈ spritePixels (s.reg x) (s.reg y) 0 (s.spriteRows n) ↔ SpriteCovers s x y n px py := by
  rw [mem_spritePixels]
  simp [SpriteCovers, State.spriteRows, Fin.ext_iff, Fin.ofNat]

/-- The buffer and the collision that Dxyn computes in `s`. -/
def drawn (s : State) (x y : Reg) (n : Nibble) : FrameBuffer × Bool :=
  blit s.fb (s.reg x) (s.reg y) (s.spriteRows n)

theorem exec_drw (s : State) (x y : Reg) (n : Nibble) :
    exec (.drw x y n) s = .next ((s.setFb (drawn s x y n).1).setFlag (drawn s x y n).2).advance := rfl

section
variable {s : State} {x y : Reg} {n : Nibble}

/-- A sprite has at most 15 rows, so it hits no pixel twice (R232). -/
theorem spritePixels_spriteRows_nodup : (spritePixels (s.reg x) (s.reg y) 0 (s.spriteRows n)).Nodup := by
  refine spritePixels_nodup _ _ _ _ ?_
  rw [State.spriteRows, List.length_map, List.length_range]
  omega

theorem drawn_pixel_of_covered {px : Column} {py : Row} (h : SpriteCovers s x y n px py) :
    (drawn s x y n).1.pixel px py = !s.pixel px py := by
  rw [drawn, blit, (foldl_drawPixel _ spritePixels_spriteRows_nodup _ _).1]
  simp [mem_spritePixels_iff, h, State.pixel]

theorem drawn_pixel_of_not_covered {px : Column} {py : Row} (h : ¬ SpriteCovers s x y n px py) :
    (drawn s x y n).1.pixel px py = s.pixel px py := by
  rw [drawn, blit, (foldl_drawPixel _ spritePixels_spriteRows_nodup _ _).1]
  simp [mem_spritePixels_iff, h, State.pixel]

theorem drawn_collided_iff :
    (drawn s x y n).2 = true ↔ ∃ px py, SpriteCovers s x y n px py ∧ s.pixel px py = true := by
  rw [drawn, blit, (foldl_drawPixel _ spritePixels_spriteRows_nodup _ _).2]
  simp [mem_spritePixels_iff, State.pixel]

theorem flagByte_collided (h : ∃ px py, SpriteCovers s x y n px py ∧ s.pixel px py = true) :
    flagByte (drawn s x y n).2 = 1 := by
  rw [drawn_collided_iff.mpr h]
  rfl

theorem flagByte_not_collided (h : ∀ px py, SpriteCovers s x y n px py → s.pixel px py = false) :
    flagByte (drawn s x y n).2 = 0 := by
  have : (drawn s x y n).2 ≠ true := fun hc => by
    obtain ⟨px, py, hcov, hset⟩ := drawn_collided_iff.mp hc
    simp [h px py hcov] at hset
  rw [Bool.eq_false_of_not_eq_true this]
  rfl

end

/-- Settles O40: DRW is one write of the display and one of VF, of what `drawn` computes. -/
theorem drawTogglesCoveredPixels : Obligations.DrawTogglesCoveredPixels := by
  unfold Obligations.DrawTogglesCoveredPixels
  intro x y n s
  refine ⟨by simp [decode], _, exec_drw s x y n, fun px py => drawn_pixel_of_covered,
    fun px py => drawn_pixel_of_not_covered, fun h => ?_, fun h => ?_, sameRegsBut_setReg (s.setFb _) VF _, rfl, rfl,
    ⟨rfl, fun _ => rfl⟩, ⟨rfl, rfl⟩, fun _ => rfl, rfl, rfl, rfl, rfl, rfl, rfl⟩
  · simp [flagByte_collided h]
  · simp [flagByte_not_collided h]

/-! ## The second draw -/

/-- The same coordinates, I and bytes give the same sprite at the same place. -/
theorem spriteCovers_congr {s u : State} {x y : Reg} (hx : u.reg x = s.reg x) (hy : u.reg y = s.reg y)
    (hi : u.i = s.i) (hmem : SameMemory s u) (n : Nibble) (px : Column) (py : Row) :
    SpriteCovers u x y n px py ↔ SpriteCovers s x y n px py := by
  have hmem : ∀ a, u.readByte a = s.readByte a := hmem
  simp only [SpriteCovers, hx, hy, hi, hmem]

/-- A byte other than 0 has a set bit. -/
theorem exists_getLsbD_of_ne_zero {b : Byte} (h : b ≠ 0) : ∃ c < 8, b.getLsbD (7 - c) = true := by
  by_contra hnone
  refine h (BitVec.eq_of_getLsbD_eq fun k hk => ?_)
  have hbit : b.getLsbD (7 - (7 - k)) ≠ true := fun hb => hnone ⟨7 - k, by omega, hb⟩
  rw [show 7 - (7 - k) = k by omega] at hbit
  simpa using hbit

/-- A sprite row that is not 0 covers a pixel. -/
theorem exists_spriteCovers {s : State} (x y : Reg) {n : Nibble}
    (h : ∃ r < n.toNat, s.readByte (ea s.i r) ≠ 0) : ∃ px py, SpriteCovers s x y n px py := by
  obtain ⟨r, hr, hne⟩ := h
  obtain ⟨c, hc, hbit⟩ := exists_getLsbD_of_ne_zero hne
  exact ⟨Fin.ofNat 64 ((s.reg x).toNat + c), Fin.ofNat 32 ((s.reg y).toNat + r), r, hr, c, hc, hbit, rfl, rfl⟩

/-- Settles O41: both draws toggle the same pixels; so the second one finds a covered pixel set exactly where the first
one found it off. -/
theorem drawingTwiceRestoresDisplay : Obligations.DrawingTwiceRestoresDisplay := by
  unfold Obligations.DrawingTwiceRestoresDisplay
  intro x y n s t u hdraw hdisplay hx hy hi hmem
  have hcov := spriteCovers_congr hx hy hi hmem n
  obtain ⟨-, t', hdraw', htcov, htnot, -⟩ := drawTogglesCoveredPixels x y n s
  obtain rfl : t = t' := by rw [hdraw] at hdraw'; exact Host.Outcome.next.inj hdraw'
  obtain ⟨-, v, hredraw, hvcov, hvnot, hvset, hvclear, -⟩ := drawTogglesCoveredPixels x y n u
  have hupixel (px py) (h : SpriteCovers s x y n px py) : u.pixel px py = !s.pixel px py :=
    (hdisplay px py).trans (htcov px py h)
  have hone (h : ∃ px py, SpriteCovers s x y n px py ∧ s.pixel px py = false) : v.reg VF = 1 := by
    obtain ⟨px, py, hc, hoff⟩ := h
    exact hvset ⟨px, py, (hcov px py).mpr hc, by rw [hupixel px py hc, hoff]; rfl⟩
  refine ⟨v, hredraw, fun px py => ?_, hone, fun hlit => hvclear fun px py hc => ?_, fun hdark hrow => ?_⟩
  · by_cases h : SpriteCovers s x y n px py
    · rw [hvcov px py ((hcov px py).mpr h), hupixel px py h, Bool.not_not]
    · rw [hvnot px py (h ∘ (hcov px py).mp), hdisplay px py, htnot px py h]
  · have hc := (hcov px py).mp hc
    rw [hupixel px py hc, hlit px py hc]
    rfl
  · obtain ⟨px, py, hc⟩ := exists_spriteCovers x y hrow
    exact hone ⟨px, py, hc, hdark px py⟩

end Sys2Proof.Machine
end

section
/-! PROOFS. Rules of every instruction: the causes of its faults, and what it writes (spec/60_exceptions.md R210 to
R213, spec/10_state.md). -/

namespace Sys2Proof.Machine

/-! ## Faults in execution (R210) -/

/-- Instruction `i` executed in `s` raises a fault of this kind, with this info: its line of the fault table. -/
inductive FaultCause (s : State) : Instr → FaultKind → FaultInfo → Prop
  | sys (nnn : Addr) : FaultCause s (.sys nnn) .unsupportedOpcode .none
  | call (nnn : Addr) (sp : s.sp.val = 16) : FaultCause s (.call nnn) .stackOverflow .none
  | ret (sp : s.sp.val = 0) : FaultCause s .ret .stackUnderflow .none
  | ldB (x : Reg) (k : Nat) (lt : k < 3) (font : (ea s.i k).toNat ≤ 0x04F)
      (first : ∀ j < k, 0x04F < (ea s.i j).toNat) : FaultCause s (.ldB x) .fontWrite (.address (ea s.i k))
  | storeRegs (x : Reg) (k : Nat) (le : k ≤ x.val) (font : (ea s.i k).toNat ≤ 0x04F)
      (first : ∀ j < k, 0x04F < (ea s.i j).toNat) : FaultCause s (.storeRegs x) .fontWrite (.address (ea s.i k))
  | skp (x : Reg) (key : 0x0F < (s.reg x).toNat) : FaultCause s (.skp x) .invalidKey (.key (s.reg x))
  | sknp (x : Reg) (key : 0x0F < (s.reg x).toNat) : FaultCause s (.sknp x) .invalidKey (.key (s.reg x))

/-! ## What an execution can write (R20 to R31, R51, R212) -/

/-- Where an execution in `s` can put PC: where it was (a fault), past its own word, past the next one too, at an
immediate address, at the offset target of Bnnn, or at a return address (R25). -/
inductive PcTarget (s : State) : Word → Prop
  | stay : PcTarget s s.pc
  | next : PcTarget s (s.pc + 2)
  | skip : PcTarget s (s.pc + 4)
  | jump (nnn : Addr) : PcTarget s (zext16 nnn)
  | offset (nnn : Addr) (b : Byte) : PcTarget s (offsetTarget nnn b)
  | slot (j : Fin 16) : PcTarget s s.stack[j.val]

theorem PcTarget.skipIf (s : State) (c : Bool) : PcTarget s (if c then s.pc + 4 else s.pc + 2) := by
  cases c
  · exact .next
  · exact .skip

/-- The stores at ea(0) to ea(n-1), none of them in the font, that lead from the memory of `s` to `m`. -/
def StoresOutsideFont (s : State) (m : Memory) : Prop :=
  ∃ n val, (∀ k < n, 0x04F < (ea s.i k).toNat) ∧ m = s.mem.writeAll (offsetWrites s.i n val)

/-- What instruction `i` has written on the way from `s` to `t`, but for the run state: of each piece of state the
writers, and for some of them what they write. A field that a proof of it leaves out is as before; PC then advances. -/
structure Effects (i : Instr) (s t : State) : Prop where
  pc : PcTarget s t.pc := by exact .next
  regs : SameRegsBut (destinations i) s t := by exact fun _ _ => rfl
  index : t.i = s.i ∨ (∃ nnn, i = .ldI nnn) ∨ (∃ x, i = .addI x) ∨ (∃ x, i = .ldF x) := by exact .inl rfl
  sp : t.sp = s.sp ∨ (∃ nnn, i = .call nnn) ∨ i = .ret := by exact .inl rfl
  stack : t.stack = s.stack ∨ ∃ nnn, i = .call nnn ∧ ∃ j : Fin 16, t.stack = s.stack.set j.val (s.pc + 2) := by
    exact .inl rfl
  delay : t.dt = s.dt ∨ ∃ x, i = .ldDT x ∧ t.dt = s.reg x := by exact .inl rfl
  sound : t.st = s.st ∨ ∃ x, i = .ldST x ∧ t.st = s.reg x := by exact .inl rfl
  memory : t.mem = s.mem ∨ ((∃ x, i = .ldB x) ∨ ∃ x, i = .storeRegs x) ∧ StoresOutsideFont s t.mem := by exact .inl rfl
  display : t.fb = s.fb ∨ i = .cls ∨ ∃ x y n, i = .drw x y n := by exact .inl rfl
  random : (t.randomBytes = s.randomBytes ∧ t.draws = s.draws) ∨ ∃ x kk, i = .rnd x kk := by exact .inl ⟨rfl, rfl⟩
  keys : (t.keyAnswers = s.keyAnswers ∧ t.polls = s.polls) ∨ (∃ x, i = .skp x) ∨ ∃ x, i = .sknp x := by
    exact .inl ⟨rfl, rfl⟩
  turns : t.turns = s.turns := by rfl

/-- The run state after an instruction that completes: Fx0A waits, every other one leaves it. -/
def RunKept (i : Instr) (s t : State) : Prop := t.run = s.run ∨ ∃ x, i = .ldK x ∧ t.run = .awaitingKey x

theorem Effects.stored {i : Instr} {s : State} {n : Nat} (val : Nat → Byte)
    (hi : (∃ x, i = .ldB x) ∨ ∃ x, i = .storeRegs x) (hout : ∀ k < n, 0x04F < (ea s.i k).toNat) :
    Effects i s (stored s n val) where
  memory := .inr ⟨hi, n, val, hout, rfl⟩

theorem Effects.loadRegs (x : Reg) (s : State) : Effects (.loadRegs x) s (s.loadUpTo x).advance := by
  have hregs : SameRegsBut (regsUpTo x) s (s.loadUpTo x) := fun r hr =>
    (s.reg_loadUpTo x r).trans (if_neg (mt (mem_regsUpTo x r).mpr hr))
  obtain ⟨v, hv⟩ := s.loadUpTo_eq x
  rw [hv] at hregs ⊢
  exact { regs := hregs }

/-- Every instruction answers a next state: it raises a fault for its listed cause, or completes (R210, R212). -/
theorem exec_cases (i : Instr) (s : State) : ∃ t, exec i s = .next t ∧
    ((∃ kind info, FaultCause s i kind info ∧ t = s.raiseIn i kind info) ∨ (RunKept i s t ∧ Effects i s t)) := by
  cases i with
  | sys nnn => exact ⟨_, rfl, .inl ⟨_, _, .sys nnn, rfl⟩⟩
  | call nnn =>
    rcases Nat.lt_or_eq_of_le (Nat.le_of_lt_succ s.sp.isLt) with hlt | hfull
    · exact ⟨_, exec_call_of_lt s nnn hlt, .inr ⟨.inl rfl,
        { pc := .jump nnn, sp := .inr (.inl ⟨nnn, rfl⟩), stack := .inr ⟨nnn, rfl, ⟨s.sp.val, hlt⟩, rfl⟩ }⟩⟩
    · exact ⟨_, exec_call_of_full s nnn hfull, .inl ⟨_, _, .call nnn hfull, rfl⟩⟩
  | ret =>
    rcases Nat.eq_zero_or_pos s.sp.val with hempty | hpos
    · exact ⟨_, exec_ret_of_empty s hempty, .inl ⟨_, _, .ret hempty, rfl⟩⟩
    · exact ⟨_, exec_ret_of_pos s hpos, .inr ⟨.inl rfl,
        { pc := .slot ⟨s.sp.val - 1, by omega⟩, sp := .inr (.inr rfl) }⟩⟩
  | ldB x =>
    rcases outside_font_or_first s.i 3 with hout | ⟨k, hk, hfont, hfirst⟩
    · exact ⟨_, exec_ldB_of_outside_font hout, .inr ⟨.inl rfl, .stored _ (.inl ⟨x, rfl⟩) hout⟩⟩
    · exact ⟨_, (storeIntoFontFaults x s k hfont hfirst).1 hk, .inl ⟨_, _, .ldB x k hk hfont hfirst, rfl⟩⟩
  | storeRegs x =>
    rcases outside_font_or_first s.i (x.val + 1) with hout | ⟨k, hk, hfont, hfirst⟩
    · exact ⟨_, exec_storeRegs_of_outside_font fun r hr => hout r.val (Nat.lt_succ_of_le hr),
        .inr ⟨.inl rfl, .stored _ (.inr ⟨x, rfl⟩) hout⟩⟩
    · have hk := Nat.le_of_lt_succ hk
      exact ⟨_, (storeIntoFontFaults x s k hfont hfirst).2 hk, .inl ⟨_, _, .storeRegs x k hk hfont hfirst, rfl⟩⟩
  | skp x =>
    rcases keyOf_cases (s.reg x) with ⟨k, hkey, -⟩ | ⟨hbig, hkey⟩
    · exact ⟨_, exec_skp_of_key hkey, .inr ⟨.inl rfl, { pc := .skipIf s _, keys := .inr (.inl ⟨x, rfl⟩) }⟩⟩
    · exact ⟨_, exec_skp_of_noKey hkey, .inl ⟨_, _, .skp x hbig, rfl⟩⟩
  | sknp x =>
    rcases keyOf_cases (s.reg x) with ⟨k, hkey, -⟩ | ⟨hbig, hkey⟩
    · exact ⟨_, exec_sknp_of_key hkey, .inr ⟨.inl rfl, { pc := .skipIf s _, keys := .inr (.inr ⟨x, rfl⟩) }⟩⟩
    · exact ⟨_, exec_sknp_of_noKey hkey, .inl ⟨_, _, .sknp x hbig, rfl⟩⟩
  | ldK x => exact ⟨_, rfl, .inr ⟨.inr ⟨x, rfl, rfl⟩, {}⟩⟩
  | jp nnn => exact ⟨_, rfl, .inr ⟨.inl rfl, { pc := .jump nnn }⟩⟩
  | jpV0 nnn => exact ⟨_, rfl, .inr ⟨.inl rfl, { pc := .offset nnn _ }⟩⟩
  | seImm | sneImm | seReg | sneReg => exact ⟨_, rfl, .inr ⟨.inl rfl, { pc := .skipIf s _ }⟩⟩
  | ldImm x | addImm x | ldReg x | orReg x | andReg x | xorReg x | ldVxDT x =>
    exact ⟨_, rfl, .inr ⟨.inl rfl, { regs := sameRegsBut_setReg s x _ }⟩⟩
  | addReg x y | sub x y | shr x y | subn x y | shl x y =>
    exact ⟨_, rfl, .inr ⟨.inl rfl, { regs := sameRegsBut_aluFlag _ _ x y s }⟩⟩
  | rnd x kk =>
    exact ⟨_, rfl, .inr ⟨.inl rfl, { regs := sameRegsBut_setReg s.afterDraw x _, random := .inr ⟨x, kk, rfl⟩ }⟩⟩
  | loadRegs x =>
    obtain ⟨v, hv⟩ := s.loadUpTo_eq x
    exact ⟨_, rfl, .inr ⟨.inl (by rw [hv]; rfl), .loadRegs x s⟩⟩
  | ldI nnn => exact ⟨_, rfl, .inr ⟨.inl rfl, { index := .inr (.inl ⟨nnn, rfl⟩) }⟩⟩
  | addI x =>
    exact ⟨_, rfl, .inr ⟨.inl rfl,
      { regs := sameRegsBut_setReg (s.setI _) VF _, index := .inr (.inr (.inl ⟨x, rfl⟩)) }⟩⟩
  | ldF x => exact ⟨_, rfl, .inr ⟨.inl rfl, { index := .inr (.inr (.inr ⟨x, rfl⟩)) }⟩⟩
  | ldDT x => exact ⟨_, rfl, .inr ⟨.inl rfl, { delay := .inr ⟨x, rfl, rfl⟩ }⟩⟩
  | ldST x => exact ⟨_, rfl, .inr ⟨.inl rfl, { sound := .inr ⟨x, rfl, rfl⟩ }⟩⟩
  | cls => exact ⟨_, rfl, .inr ⟨.inl rfl, { display := .inr (.inl rfl) }⟩⟩
  | drw x y n =>
    exact ⟨_, rfl, .inr ⟨.inl rfl,
      { regs := sameRegsBut_setReg (s.setFb _) VF _, display := .inr (.inr ⟨x, y, n, rfl⟩) }⟩⟩

theorem exec_next_cases {i : Instr} {s t : State} (h : exec i s = .next t) :
    (∃ kind info, FaultCause s i kind info ∧ t = s.raiseIn i kind info) ∨ (RunKept i s t ∧ Effects i s t) := by
  obtain ⟨t', hexec, hcases⟩ := exec_cases i s
  rw [h] at hexec
  cases hexec
  exact hcases

/-- A fault writes the run state alone, so it has no other effects (R213). -/
theorem effects_of_exec {i : Instr} {s t : State} (h : exec i s = .next t) : Effects i s t := by
  rcases exec_next_cases h with ⟨kind, info, -, rfl⟩ | ⟨-, heff⟩
  · exact { pc := .stay }
  · exact heff

/-! ## The rules of every instruction -/

/-- Settles O51: the instructions that the fault causes name are the ones excluded. -/
theorem onlyNamedInstructionsCanFault : Obligations.OnlyNamedInstructionsCanFault := by
  unfold Obligations.OnlyNamedInstructionsCanFault
  intro i s
  obtain ⟨t, hexec, ⟨kind, info, cause, -⟩ | ⟨hkept, -⟩⟩ := exec_cases i s
  · refine ⟨t, hexec, fun hret hsys hcall hldB hstore hskp hsknp => ?_⟩
    cases cause with
    | sys nnn => exact absurd rfl (hsys nnn)
    | call nnn => exact absurd rfl (hcall nnn)
    | ret => exact absurd rfl hret
    | ldB x => exact absurd rfl (hldB x)
    | storeRegs x => exact absurd rfl (hstore x)
    | skp x => exact absurd rfl (hskp x)
    | sknp x => exact absurd rfl (hsknp x)
  · exact ⟨t, hexec, fun _ _ _ _ _ _ _ => hkept⟩

/-- Settles O53: what an instruction outside the writers of a piece of state leaves there. -/
theorem eachStateHasItsWriters : Obligations.EachStateHasItsWriters := by
  unfold Obligations.EachStateHasItsWriters
  intro i s t h
  have eff := effects_of_exec h
  refine ⟨eff.regs, fun hI hadd hF => ?_, fun hcall hret => ?_, fun hi => ?_, fun hi => ?_, fun hB hstore => ?_,
    fun hcls hdrw => ?_, fun hi => ?_, fun hskp hsknp => ?_, eff.turns⟩
  · rcases eff.index with same | ⟨nnn, e⟩ | ⟨x, e⟩ | ⟨x, e⟩
    exacts [same, absurd e (hI nnn), absurd e (hadd x), absurd e (hF x)]
  · have hsp : t.sp = s.sp := by
      rcases eff.sp with same | ⟨nnn, e⟩ | e
      exacts [same, absurd e (hcall nnn), absurd e hret]
    have hstack : t.stack = s.stack := by
      rcases eff.stack with same | ⟨nnn, e, -⟩
      exacts [same, absurd e (hcall nnn)]
    exact ⟨hsp, fun j => by rw [hstack]⟩
  · rcases eff.delay with same | ⟨x, e, -⟩
    exacts [same, absurd e (hi x)]
  · rcases eff.sound with same | ⟨x, e, -⟩
    exacts [same, absurd e (hi x)]
  · rcases eff.memory with same | ⟨⟨x, e⟩ | ⟨x, e⟩, -⟩
    exacts [fun a => by rw [State.readByte, same, State.readByte], absurd e (hB x), absurd e (hstore x)]
  · rcases eff.display with same | e | ⟨x, y, n, e⟩
    exacts [fun px py => by rw [State.pixel, same, State.pixel], absurd e hcls, absurd e (hdrw x y n)]
  · rcases eff.random with same | ⟨x, kk, e⟩
    exacts [same, absurd e (hi x kk)]
  · rcases eff.keys with same | ⟨x, e⟩ | ⟨x, e⟩
    exacts [same, absurd e (hskp x), absurd e (hsknp x)]

end Sys2Proof.Machine
end

section
/-! PROOFS. The faults of a step: where they are raised, and that they write nothing else (spec/60_exceptions.md R212 to
R214). -/

namespace Sys2Proof.Machine

/-- A step from Running that enters Halted raised the fault at the fetch, at the decoding, or in the execution. -/
theorem step_fault_cases {s t : State} {f : FaultRecord} (run : s.run = .running) (h : step s = .next t)
    (halted : t.run = .halted f) :
    t = s.popTurn.setRun (.halted f) ∧
    ((0x0FFE < s.pc.toNat ∧ f = { kind := .pcOutOfRange, pc := s.pc, word := none, info := .none }) ∨
     (s.pc.toNat ≤ 0x0FFE ∧ (∃ e, decode s.fetchWord = .error e) ∧
        f = { kind := .unsupportedOpcode, pc := s.pc, word := some s.fetchWord, info := .none }) ∨
     (s.pc.toNat ≤ 0x0FFE ∧ ∃ i kind info, decode s.fetchWord = .ok i ∧ FaultCause s.popTurn i kind info ∧
        f = { kind := kind, pc := s.pc, word := some (encode i), info := info })) := by
  have notHalted {r : Run} (hr : t.run = r) (hne : ∀ f, r ≠ .halted f) : False := hne f (hr.symm.trans halted)
  cases step_cases h with
  | outOfRange _ _ pc eff =>
    subst eff
    cases halted
    exact ⟨rfl, .inl ⟨pc, rfl⟩⟩
  | unsupported e _ _ pc dec eff =>
    subst eff
    cases halted
    exact ⟨rfl, .inr (.inl ⟨pc, ⟨e, dec⟩, rfl⟩)⟩
  | executed i _ _ pc dec eff =>
    rcases exec_next_cases eff with ⟨kind, info, cause, rfl⟩ | ⟨hsame | ⟨x, -, hwait⟩, -⟩
    · cases halted
      exact ⟨rfl, .inr (.inr ⟨pc, i, kind, info, dec, cause, rfl⟩)⟩
    · exact (notHalted (hsame.trans run) nofun).elim
    · exact (notHalted hwait nofun).elim
  | waiting x _ run' => cases run.symm.trans run'
  | delivered k x _ run' => cases run.symm.trans run'
  | ticked _ _ eff =>
    subst eff
    exact (notHalted run nofun).elim
  | ignoredKey k _ _ eff =>
    subst eff
    exact (notHalted run nofun).elim
  | stopped _ _ eff =>
    subst eff
    exact (notHalted rfl nofun).elim
  | booted rom _ len eff =>
    rw [boot_of_fits _ len] at eff
    cases eff
    exact (notHalted rfl nofun).elim

/-- Settles O49: wherever the fault was raised, the run state is all that was written, with a record of PC. -/
theorem faultsArePreciseAndAtomic : Obligations.FaultsArePreciseAndAtomic := by
  unfold Obligations.FaultsArePreciseAndAtomic
  intro s t f run h halted
  obtain ⟨ht, ⟨-, rfl⟩ | ⟨-, -, rfl⟩ | ⟨-, i, kind, info, -, -, rfl⟩⟩ := step_fault_cases run h halted <;>
    exact ⟨ht, rfl⟩

/-- Settles O50, by cases on where the fault was raised and on its cause. -/
theorem faultCausesAreTheListedOnes : Obligations.FaultCausesAreTheListedOnes := by
  unfold Obligations.FaultCausesAreTheListedOnes
  intro s t f run h halted
  obtain ⟨-, ⟨pc, rfl⟩ | ⟨pc, ⟨e, dec⟩, rfl⟩ | ⟨pc, i, kind, info, dec, cause, rfl⟩⟩ := step_fault_cases run h halted
  · exact .inl ⟨rfl, rfl, rfl, pc⟩
  · exact .inr ⟨s.fetchWord, pc, rfl, rfl, .inl ⟨rfl, rfl, .inl (decode_error_eq dec ▸ dec)⟩⟩
  · refine .inr ⟨s.fetchWord, pc, congrArg some (encodeOfDecodeIsIdentity _ _ dec).1, rfl, ?_⟩
    cases cause with
    | sys nnn => exact .inl ⟨rfl, rfl, .inr ⟨nnn, dec⟩⟩
    | call nnn sp => exact .inr (.inl ⟨rfl, rfl, sp, nnn, dec⟩)
    | ret sp => exact .inr (.inr (.inl ⟨rfl, rfl, sp, dec⟩))
    | ldB x k lt font first =>
      exact .inr (.inr (.inr (.inl ⟨rfl, x, k, rfl, font, first, .inl ⟨lt, dec⟩⟩)))
    | storeRegs x k le font first =>
      exact .inr (.inr (.inr (.inl ⟨rfl, x, k, rfl, font, first, .inr ⟨le, dec⟩⟩)))
    | skp x key => exact .inr (.inr (.inr (.inr ⟨rfl, x, rfl, key, .inl dec⟩)))
    | sknp x key => exact .inr (.inr (.inr (.inr ⟨rfl, x, rfl, key, .inr dec⟩)))

end Sys2Proof.Machine
end

section
/-! PROOFS. Where the timers and the sound change (spec/60_exceptions.md R225, R237). -/

namespace Sys2Proof.Machine

/-! ## The writers of the timers (R32) -/

/-- A timer went from `old` to `new` in a step from `s`: it is as before, or one lower in a tick, or V[x] by the
instruction `writer x`. -/
def TimerStep (s : State) (writer : Reg → Instr) (old new : Byte) : Prop :=
  new = old ∨ (s.nextTurn = .timer ∧ new.toNat + 1 = old.toNat) ∨
    ∃ x, s.nextTurn = .engine ∧ new = s.reg x ∧ decode s.fetchWord = .ok (writer x)

theorem timerStep_countDown {s : State} (turn : s.nextTurn = .timer) (writer : Reg → Instr) (b : Byte) :
    TimerStep s writer b (countDown b) := by
  by_cases h : b = 0
  · exact .inl (by simp [countDown, h])
  · have hpos : b.toNat ≠ 0 := fun e => h (BitVec.eq_of_toNat_eq e)
    exact .inr (.inl ⟨turn, by rw [countDown_toNat]; omega⟩)

/-- Settles O54, by cases on what the step did: only an execution or a tick writes a timer. -/
theorem timersChangeOnlyByTickOrWrite : Obligations.TimersChangeOnlyByTickOrWrite := by
  unfold Obligations.TimersChangeOnlyByTickOrWrite
  intro s t h hreset
  change TimerStep s .ldDT s.dt t.dt ∧ TimerStep s .ldST s.st t.st
  cases step_cases h with
  | executed i turn run pc dec eff =>
    have effects := effects_of_exec eff
    constructor
    · rcases effects.delay with same | ⟨x, rfl, hwrite⟩
      · exact .inl same
      · exact .inr (.inr ⟨x, turn, hwrite, dec⟩)
    · rcases effects.sound with same | ⟨x, rfl, hwrite⟩
      · exact .inl same
      · exact .inr (.inr ⟨x, turn, hwrite, dec⟩)
  | ticked turn _ eff => exact eff ▸ ⟨timerStep_countDown turn _ _, timerStep_countDown turn _ _⟩
  | unsupported _ _ _ _ _ eff | outOfRange _ _ _ eff | waiting _ _ _ eff | ignoredKey _ _ _ eff
  | delivered _ _ _ _ eff | stopped _ _ eff => exact eff ▸ ⟨.inl rfl, .inl rfl⟩
  | booted rom turn => exact absurd turn (hreset rom)

/-! ## The sound output (R237) -/

/-- A call is made only where the output changes, with its new value. -/
theorem setActiveCall_eq_some {s t : State} {b : Bool} (h : setActiveCall s t = some b) :
    t.soundActive = b ∧ s.soundActive ≠ b := by
  unfold setActiveCall at h
  split at h
  · cases h
  · next hne =>
    cases h
    exact ⟨rfl, hne⟩

/-- Settles O55: a call tells that ST changed, and in a step that is no reset only a tick or Fx18 changes ST. -/
theorem soundCallsComeFromTimerSteps : Obligations.SoundCallsComeFromTimerSteps := by
  unfold Obligations.SoundCallsComeFromTimerSteps
  intro s t b h hcall
  obtain ⟨hnew, hold⟩ := setActiveCall_eq_some hcall
  refine ⟨hnew ▸ soundActive_iff t, ?_, ?_⟩
  · have hzero : s.st = 0 ↔ s.soundActive ≠ true := by
      rw [ne_eq, soundActive_iff, Nat.pos_iff_ne_zero, not_not]
      exact ⟨fun e => congrArg BitVec.toNat e, fun e => BitVec.eq_of_toNat_eq e⟩
    rw [hzero]
    cases b with
    | true => exact ⟨fun _ => hold, fun _ => rfl⟩
    | false => exact ⟨nofun, fun hs => absurd (Bool.eq_false_of_not_eq_true hs) hold⟩
  · by_cases hreset : ∃ rom, s.nextTurn = .reset rom
    · exact .inr (.inl hreset)
    · rcases (timersChangeOnlyByTickOrWrite s t h fun rom e => hreset ⟨rom, e⟩).2 with
        same | ⟨turn, -⟩ | ⟨x, turn, -, dec⟩
      · exact absurd (by rw [State.soundActive, ← same]; exact hnew) hold
      · exact .inl turn
      · exact .inr (.inr ⟨x, turn, dec⟩)

end Sys2Proof.Machine
end

section
/-! PROOFS. The wait for a key (spec/60_exceptions.md R200, R226, R243). -/

namespace Sys2Proof.Machine

/-- `s` after the turns of some agents that only count the timers down: `n` ticks were among them. -/
def AfterTicks (n : Nat) (s t : State) : Prop :=
  ∃ turns dt st, t = { s with turns := turns, dt := dt, st := st } ∧
    dt.toNat = s.dt.toNat - n ∧ st.toNat = s.st.toNat - n

theorem afterTicks_turns (s : State) (ts : List Turn) : AfterTicks 0 s { s with turns := ts } :=
  ⟨ts, s.dt, s.st, rfl, rfl, rfl⟩

theorem AfterTicks.run {n : Nat} {s t : State} (h : AfterTicks n s t) : t.run = s.run := by
  obtain ⟨turns, dt, st, rfl, -⟩ := h
  rfl

theorem AfterTicks.trans {m n : Nat} {s t u : State} (hst : AfterTicks m s t) (htu : AfterTicks n t u) :
    AfterTicks (m + n) s u := by
  obtain ⟨_, dt, st, rfl, hdt, hst⟩ := hst
  obtain ⟨turns, dt', st', rfl, hdt', hst'⟩ := htu
  exact ⟨turns, dt', st', rfl, by simp only at hdt'; omega, by simp only at hst'; omega⟩

/-- One turn of the engine or the timer while the machine waits. -/
theorem step_of_awaiting {s : State} {x : Reg} {turn : Turn} {ts : List Turn} (hs : s.run = .awaitingKey x)
    (hturns : s.turns = turn :: ts) (hturn : turn = .engine ∨ turn = .timer) :
    ∃ t, step s = .next t ∧ t.turns = ts ∧ AfterTicks (if turn = .timer then 1 else 0) s t := by
  have hnext := s.nextTurn_of_cons turn ts hturns
  have htail : s.turns.tail = ts := by rw [hturns, List.tail_cons]
  rcases hturn with rfl | rfl
  · exact ⟨_, step_of_engine_awaiting hnext hs, htail, afterTicks_turns s _⟩
  · exact ⟨_, step_of_timer hnext (.inr ⟨x, hs⟩), htail, _, _, _, rfl, countDown_toNat _, countDown_toNat _⟩

/-- A run whose first step answers a state goes on from that state, in every machine. -/
theorem run_succ_of_step (M : Host.Core) {s t : M.State} (h : M.step s = .next t) (k : Nat) :
    M.run (k + 1) s = M.run k t := by
  rw [Host.Core.run, h]

/-- Any list of such turns, by induction on it: each tick counts once. -/
theorem run_of_awaiting {x : Reg} (ts : List Turn) (hts : ∀ t ∈ ts, t = .engine ∨ t = .timer) (s : State)
    (hs : s.run = .awaitingKey x) (hturns : s.turns = ts) :
    ∃ t, core.run ts.length s = .next t ∧ t.turns = [] ∧ AfterTicks (ts.count .timer) s t := by
  induction ts generalizing s with
  | nil => exact ⟨s, rfl, hturns, afterTicks_turns s s.turns⟩
  | cons turn ts ih =>
    obtain ⟨u, hstep, huturns, hu⟩ := step_of_awaiting hs hturns (hts turn (List.mem_cons_self ..))
    obtain ⟨t, hrun, htturns, ht⟩ := ih (fun t ht => hts t (List.mem_cons_of_mem _ ht)) u (hu.run.trans hs) huturns
    refine ⟨t, (run_succ_of_step core hstep _).trans hrun, htturns, ?_⟩
    rw [List.count_cons, Nat.add_comm]
    simpa using hu.trans ht

/-- Settles O56: the list of turns is run to its end with only the timers counted down. -/
theorem waitSurvivesTurns : Obligations.WaitSurvivesTurns := by
  unfold Obligations.WaitSurvivesTurns
  intro s x ts hs hts
  obtain ⟨t, hrun, hturns, turns, dt, st, rfl, hdt, hst⟩ := run_of_awaiting ts hts { s with turns := ts } hs rfl
  exact ⟨_, hrun, hdt, hst, fun _ _ => rfl, rfl, rfl, ⟨rfl, fun _ => rfl⟩, fun _ => rfl, rfl, fun _ _ => rfl, hturns,
    rfl, rfl, rfl, rfl⟩

/-- The first `n` turns of a schedule of such turns: as many ticks as it has timer's turns among them. -/
theorem scheduleRun_of_awaiting {σ : Nat → Turn} (hσ : ∀ n, σ n = .engine ∨ σ n = .timer) {s : State} {x : Reg}
    (hs : s.run = .awaitingKey x) (n : Nat) :
    ∃ t, scheduleRun σ s n = .next t ∧ AfterTicks (Nat.count (fun k => σ k = .timer) n) s t := by
  induction n with
  | zero => exact ⟨s, rfl, afterTicks_turns s s.turns⟩
  | succ n ih =>
    obtain ⟨t, hrun, ht⟩ := ih
    have hwait : ({ t with turns := [σ n] } : State).run = .awaitingKey x := ht.run.trans hs
    obtain ⟨u, hstep, -, hu⟩ := step_of_awaiting hwait rfl (hσ n)
    refine ⟨u, by rw [scheduleRun, hrun]; exact hstep, ?_⟩
    rw [Nat.count_succ]
    exact (ht.trans (afterTicks_turns t [σ n])).trans hu

/-- A fair schedule has any number of timer's turns among its first ones (R226). -/
theorem exists_count_timer {σ : Nat → Turn} (hσ : FairSchedule σ) (k : Nat) :
    ∃ n, Nat.count (fun m => σ m = .timer) n = k := by
  have hinf : {m | σ m = .timer}.Infinite := by
    rw [← Nat.frequently_atTop_iff_infinite, Filter.frequently_atTop]
    exact hσ.2
  exact ⟨_, Nat.count_nth_of_infinite hinf k⟩

/-- Settles O57: 255 ticks count any byte down to 0. -/
theorem fairWaitRunsTimersOut : Obligations.FairWaitRunsTimersOut := by
  unfold Obligations.FairWaitRunsTimersOut
  intro σ s x hfair hσ hs
  obtain ⟨n, hn⟩ := exists_count_timer hfair 255
  obtain ⟨t, hrun, turns, dt, st, rfl, hdt, hst⟩ := scheduleRun_of_awaiting hσ hs n
  rw [hn] at hdt hst
  refine ⟨n, _, hrun, BitVec.eq_of_toNat_eq (hdt.trans ?_), BitVec.eq_of_toNat_eq (hst.trans ?_), hs, rfl⟩
  all_goals exact Nat.sub_eq_zero_of_le (Nat.le_of_lt_succ (BitVec.isLt _))

end Sys2Proof.Machine
end

section
/-! PROOFS. The canonical form determines the memory (log entry 16). -/

namespace Sys2Proof.Machine

/-- An address that does not read as after reset is listed. -/
theorem Memory.mem_of_read_ne (m : Memory) (a : Nat) (h : m.read a ≠ resetByte a) : (a, m.read a) ∈ m := by
  induction m with
  | nil => exact absurd rfl h
  | cons c m ih =>
    rw [Memory.read] at h ⊢
    by_cases hc : c.1 = a
    · subst hc
      simp
    · rw [if_neg hc] at h ⊢
      exact List.mem_cons_of_mem _ (ih h)

/-- A memory in canonical form lists exactly the cells that do not read as after reset. -/
theorem Memory.mem_iff_of_wf {m : Memory} (hm : m.wf) (c : Host.Cell) :
    c ∈ m ↔ c.1 < 0x1000 ∧ m.read c.1 = c.2 ∧ c.2 ≠ resetByte c.1 := by
  constructor
  · intro hc
    obtain ⟨hlt, hne⟩ := hm.2 c hc
    exact ⟨hlt, m.read_of_mem hm.1 c hc, hne⟩
  · rintro ⟨-, hread, hne⟩
    have := m.mem_of_read_ne c.1 (hread ▸ hne)
    rwa [hread] at this

/-- Settles O58: both list the cells that do not read as after reset, in the order of their addresses. -/
theorem canonicalMemoryIsUnique : Obligations.CanonicalMemoryIsUnique := by
  unfold Obligations.CanonicalMemoryIsUnique
  intro m m' hm hm' hread
  have hcells (c : Host.Cell) : c ∈ m ↔ c ∈ m' := by
    rw [Memory.mem_iff_of_wf hm, Memory.mem_iff_of_wf hm']
    refine and_congr_right fun hlt => ?_
    have haddr : (BitVec.ofNat 12 c.1).toNat = c.1 := by rw [BitVec.toNat_ofNat]; omega
    rw [← haddr, hread, haddr]
  have nodup {l : Memory} (hl : l.wf) : l.Nodup := hl.1.imp fun hlt e => absurd (congrArg Prod.fst e) (Nat.ne_of_lt hlt)
  have hperm : m.Perm m' := (List.perm_ext_iff_of_nodup (nodup hm) (nodup hm')).mpr hcells
  exact hperm.eq_of_pairwise (fun _ _ _ _ h h' => absurd h' (Nat.lt_asymm h)) hm.1 hm'.1

end Sys2Proof.Machine
end

section
/-! PROOFS. The invariant of every step (spec/10_state.md R36, R41; spec/30_encoding.md R74). -/

namespace Sys2Proof.Machine

theorem State.faultRecord_eq_some {s : State} {f : FaultRecord} : s.faultRecord = some f ↔ s.run = .halted f := by
  unfold State.faultRecord
  split <;> simp_all

/-- The invariant speaks of memory, PC, the stack and the fault record alone. -/
theorem State.Inv.congr {s t : State} (hs : s.Inv) (mem : t.mem = s.mem) (pc : t.pc = s.pc) (stack : t.stack = s.stack)
    (record : ∀ f, t.run = .halted f → f.pc = t.pc) : t.Inv where
  memory := mem ▸ hs.memory
  font := mem ▸ hs.font
  pc := pc ▸ hs.pc
  stack := stack ▸ hs.stack
  record f hf := record f (State.faultRecord_eq_some.mp hf)

/-- Every place that an execution can put PC is at most 0x10FE, the largest target of Bnnn (R74, R103). -/
theorem PcTarget.le {s : State} {w : Word} (h : PcTarget s w) (hs : s.Inv) (pc : s.pc.toNat ≤ 0x0FFE) :
    w.toNat ≤ 0x10FE := by
  cases h with
  | stay => omega
  | next => bv_omega
  | skip => bv_omega
  | jump nnn =>
    rw [zext16_toNat]
    omega
  | offset nnn b =>
    rw [offsetTarget_toNat]
    omega
  | slot j => exact (hs.stack j).trans (by decide)

/-- A store that passed the check leaves the font, as none of its targets lies there (R36, R56). -/
theorem read_font_of_storesOutsideFont {s : State} {m : Memory} (hm : s.mem.wf) (h : StoresOutsideFont s m) {a : Nat}
    (ha : a ≤ 0x04F) : m.read a = s.mem.read a := by
  obtain ⟨n, val, hout, rfl⟩ := h
  refine Memory.read_writeAll_other _ _ hm a fun w hw => ?_
  obtain ⟨k, hk, rfl⟩ := List.mem_map.mp hw
  exact Nat.ne_of_gt (Nat.lt_of_le_of_lt ha (hout k (List.mem_range.mp hk)))

/-- An execution in Running, at a PC that a fetch can use, keeps the invariant. -/
theorem exec_inv {i : Instr} {s t : State} (hs : s.Inv) (run : s.run = .running) (pc : s.pc.toNat ≤ 0x0FFE)
    (h : exec i s = .next t) : t.Inv := by
  have eff := effects_of_exec h
  constructor
  case memory =>
    rcases eff.memory with same | ⟨-, n, val, -, hmem⟩
    · exact same ▸ hs.memory
    · exact hmem ▸ Memory.writeAll_wf _ _ hs.memory
  case font =>
    intro a ha
    rcases eff.memory with same | ⟨-, hstores⟩
    · exact same ▸ hs.font a ha
    · exact (read_font_of_storesOutsideFont hs.memory hstores ha).trans (hs.font a ha)
  case pc => exact eff.pc.le hs pc
  case stack =>
    intro j
    rcases eff.stack with same | ⟨nnn, -, k, hpush⟩
    · exact same ▸ hs.stack j
    · have hret : (s.pc + 2).toNat ≤ 0x1000 := by bv_omega
      simp only [hpush, Vector.getElem_set]
      split
      · exact hret
      · exact hs.stack j
  case record =>
    intro f hf
    have halted := State.faultRecord_eq_some.mp hf
    rcases exec_next_cases h with ⟨kind, info, -, rfl⟩ | ⟨hsame | ⟨x, -, hwait⟩, -⟩
    · cases halted
      rfl
    · cases halted.symm.trans (hsame.trans run)
    · cases halted.symm.trans hwait

/-- Settles O59, by cases on what the step did: an execution and a load keep the invariant by what they write, and the
others write no memory, no PC and no stack. -/
theorem stepKeepsInvariant : Obligations.StepKeepsInvariant := by
  unfold Obligations.StepKeepsInvariant
  intro s t hs h
  have hrecord (f : FaultRecord) (hf : s.run = .halted f) : f.pc = s.pc :=
    hs.record f (State.faultRecord_eq_some.mpr hf)
  cases step_cases h with
  | executed i turn run pc dec eff =>
    exact exec_inv (hs.congr (t := s.popTurn) rfl rfl rfl hrecord) run pc eff
  | booted rom turn len eff => exact boot_inv len eff
  | unsupported _ _ _ _ _ eff | outOfRange _ _ _ eff =>
    exact hs.congr (eff ▸ rfl) (eff ▸ rfl) (eff ▸ rfl) fun f hf => by subst eff; cases hf; rfl
  | waiting _ _ _ eff | ticked _ _ eff | ignoredKey _ _ _ eff =>
    subst eff
    exact hs.congr rfl rfl rfl hrecord
  | delivered _ _ _ _ eff | stopped _ _ eff =>
    subst eff
    exact hs.congr rfl rfl rfl nofun

end Sys2Proof.Machine
end
